-- ==== Sys2Proof/Word.lean ====
section
/-! DEFINITION. The widths of the engine's values (spec/00_scope.md section 6). -/

namespace Sys2Proof

/-- An 8-bit unsigned cell: a register, a memory cell, an opcode or operand byte, `SP`. -/
abbrev Byte := BitVec 8

/-- A 16-bit value: `PC` and `IR` (decisions D3, D6). -/
abbrev Word := BitVec 16

/-- The 4-bit status register (10_state.md R16). -/
abbrev Nibble := BitVec 4

end Sys2Proof
end

