-- ==== Sys2Proof/Syntax.lean ====
section
/-! DEFINITION. The 17 instructions of spec/opcode_table.json, one constructor a row. Every operand byte of the 3-byte
format (30_encoding.md R50) is a field, the ignored ones too, so that an instruction and its three bytes determine each
other under a given opcode map. -/

namespace Sys2Proof

/-- The instruction set (30_encoding.md R52). -/
inductive Instr where
  /-- LOAD: `dst` register index, `addr` absolute address (R90). -/
  | load (dst addr : Byte)
  /-- STORE: `src` register index, `addr` absolute address (R91). -/
  | store (src addr : Byte)
  /-- MOVE: source register first, destination register second (R92). -/
  | move (src dst : Byte)
  /-- ADD: `reg1` is source and destination (R100). -/
  | add (reg1 reg2 : Byte)
  /-- SUB: `reg1` is minuend and destination (R101). -/
  | sub (reg1 reg2 : Byte)
  /-- INC: the second operand byte is ignored (R102). -/
  | inc (reg ignored : Byte)
  /-- DEC: the second operand byte is ignored (R103). -/
  | dec (reg ignored : Byte)
  /-- AND (R110). -/
  | and (reg1 reg2 : Byte)
  /-- OR (R111). -/
  | or (reg1 reg2 : Byte)
  /-- XOR (R112). -/
  | xor (reg1 reg2 : Byte)
  /-- NOT: the second operand byte is ignored (R113). -/
  | not (reg ignored : Byte)
  /-- SHL: the second operand byte is ignored, it is no shift count (R114). -/
  | shl (reg ignored : Byte)
  /-- SHR: the second operand byte is ignored (R115). -/
  | shr (reg ignored : Byte)
  /-- JMP: high and low byte of the absolute target (R120). -/
  | jmp (high low : Byte)
  /-- JZ (R121). -/
  | jz (high low : Byte)
  /-- JNZ (R122). -/
  | jnz (high low : Byte)
  /-- HALT: both operand bytes are ignored; the first is still recorded in `IR` (R123). -/
  | halt (ignored1 ignored2 : Byte)
  deriving DecidableEq, Repr

/-- The first operand byte `op1` (30_encoding.md R50). -/
def Instr.op1 : Instr → Byte
  | .load a _ | .store a _ | .move a _ | .add a _ | .sub a _ | .inc a _ | .dec a _ | .and a _ | .or a _
  | .xor a _ | .not a _ | .shl a _ | .shr a _ | .jmp a _ | .jz a _ | .jnz a _ | .halt a _ => a

/-- The second operand byte `op2` (30_encoding.md R50). -/
def Instr.op2 : Instr → Byte
  | .load _ b | .store _ b | .move _ b | .add _ b | .sub _ b | .inc _ b | .dec _ b | .and _ b | .or _ b
  | .xor _ b | .not _ b | .shl _ b | .shr _ b | .jmp _ b | .jz _ b | .jnz _ b | .halt _ b => b

end Sys2Proof
end

