-- ==== Sys2Proof/Decode.lean ====
section
/-! DEFINITION. Decoding (spec/30_encoding.md R50 to R58), total on any bytes, and the encoder. Both take the opcode map
`OPC` as an argument, as R52 advises; `opcodeTable` is the value the spec gives it. -/

namespace Sys2Proof

/-- The mnemonics, in the order of the instruction table (30_encoding.md R52). -/
inductive Mnemonic where
  | LOAD | STORE | MOVE | ADD | SUB | INC | DEC | AND | OR | XOR | NOT | SHL | SHR | JMP | JZ | JNZ | HALT
  deriving DecidableEq, Repr

/-- An opcode map `OPC : mnemonic -> byte` (30_encoding.md R52). Its only law is that it is injective. -/
abbrev OpcodeMap := Mnemonic → Byte

/-- The spec's opcode map (30_encoding.md R52, decision D1).
UNVERIFIED: the spec's source gives no opcode number. Unsafe for claims about byte images (log entry 1). -/
def opcodeTable : OpcodeMap
  | .LOAD => 0x00 | .STORE => 0x01 | .MOVE => 0x02 | .ADD => 0x03 | .SUB => 0x04 | .INC => 0x05
  | .DEC => 0x06 | .AND => 0x07 | .OR => 0x08 | .XOR => 0x09 | .NOT => 0x0A | .SHL => 0x0B
  | .SHR => 0x0C | .JMP => 0x0D | .JZ => 0x0E | .JNZ => 0x0F | .HALT => 0x10

/-- Every mnemonic once. -/
def allMnemonics : List Mnemonic :=
  [.LOAD, .STORE, .MOVE, .ADD, .SUB, .INC, .DEC, .AND, .OR, .XOR, .NOT, .SHL, .SHR, .JMP, .JZ, .JNZ, .HALT]

/-- The row of the instruction table an instruction belongs to. -/
def Instr.mnemonic : Instr → Mnemonic
  | .load _ _ => .LOAD | .store _ _ => .STORE | .move _ _ => .MOVE | .add _ _ => .ADD | .sub _ _ => .SUB
  | .inc _ _ => .INC | .dec _ _ => .DEC | .and _ _ => .AND | .or _ _ => .OR | .xor _ _ => .XOR
  | .not _ _ => .NOT | .shl _ _ => .SHL | .shr _ _ => .SHR | .jmp _ _ => .JMP | .jz _ _ => .JZ
  | .jnz _ _ => .JNZ | .halt _ _ => .HALT

/-- The instruction of a row with its two operand bytes in that row's roles (30_encoding.md R52, R53). -/
def instrOf (m : Mnemonic) (op1 op2 : Byte) : Instr :=
  match m with
  | .LOAD => .load op1 op2 | .STORE => .store op1 op2 | .MOVE => .move op1 op2 | .ADD => .add op1 op2
  | .SUB => .sub op1 op2 | .INC => .inc op1 op2 | .DEC => .dec op1 op2 | .AND => .and op1 op2
  | .OR => .or op1 op2 | .XOR => .xor op1 op2 | .NOT => .not op1 op2 | .SHL => .shl op1 op2
  | .SHR => .shr op1 op2 | .JMP => .jmp op1 op2 | .JZ => .jz op1 op2 | .JNZ => .jnz op1 op2
  | .HALT => .halt op1 op2

/-- Look the whole opcode byte up in the instruction table, for equality (30_encoding.md R51).
DESIGN CHOICE: under a map that is not injective, the first row wins; safe, `opcodeTable` is injective (log entry 20). -/
def lookupOpcode (opc : OpcodeMap) (opcode : Byte) : Option Mnemonic :=
  allMnemonics.find? (fun m => opc m == opcode)

/-- What a sequence of bytes decodes to. -/
inductive Decoded where
  /-- An instruction, and the bytes after its three. -/
  | instr (i : Instr) (rest : List Byte)
  /-- The opcode byte is not in the instruction table (30_encoding.md R54): not illegal, an implicit halt. -/
  | unknownOpcode (opcode op1 op2 : Byte) (rest : List Byte)
  /-- Fewer than three bytes: no full instruction (45_run_loop.md R133). -/
  | incomplete (bytes : List Byte)
  deriving DecidableEq, Repr

/-- Decoding under an opcode map (30_encoding.md R58): no operand value is checked. -/
def decodeWith (opc : OpcodeMap) : List Byte → Decoded
  | opcode :: op1 :: op2 :: rest =>
    match lookupOpcode opc opcode with
    | some m => .instr (instrOf m op1 op2) rest
    | none => .unknownOpcode opcode op1 op2 rest
  | bytes => .incomplete bytes

/-- Decoding under the spec's opcode map. -/
def decode (bytes : List Byte) : Decoded := decodeWith opcodeTable bytes

/-- The three bytes of an instruction, lowest address first (30_encoding.md R50). -/
def encodeWith (opc : OpcodeMap) (i : Instr) : List Byte := [opc i.mnemonic, i.op1, i.op2]

/-- Encoding under the spec's opcode map. -/
def encode (i : Instr) : List Byte := encodeWith opcodeTable i

/-- The three bytes, lowest address first, of an instruction given as the number `W = opcode : op1 : op2` that
opcode_table.json uses, "first byte in the high bits" (30_encoding.md section 1). Bits of `w` from `nbits` up are 0. -/
def tableBytes (nbits w : Nat) : List Byte :=
  let v := w % 2 ^ nbits
  [BitVec.ofNat 8 (v / 65536), BitVec.ofNat 8 (v / 256), BitVec.ofNat 8 v]

/-- What the decoder reads from an instruction whose bits are `w`, numbered as opcode_table.json numbers them. -/
def decodeTableWord (nbits w : Nat) : Option Instr :=
  match decode (tableBytes nbits w) with
  | .instr i _ => some i
  | _ => none

end Sys2Proof
end

