-- ==== Sys2Proof/Config.lean ====
section
/-! DEFINITION. What an engine fixes at reset (spec/00_scope.md R1). The spec leaves no result value open, so there is no
free value here. The opcode map `OPC` (decision D1) stands in Decode.lean, the flag layout (D2) in Machine/Flags.lean. -/

namespace Sys2Proof

/-- The two construction parameters: "register count (byte), memory size (byte)" (00_scope.md R1). Both may be 0 (D18). -/
structure Params where
  /-- `N`, the number of general registers. -/
  regCount : Byte
  /-- `M`, the number of memory cells. -/
  memSize : Byte
  deriving DecidableEq, Repr

end Sys2Proof
end

