-- ==== Sys2Proof/Machine/Params.lean ====
section
/-! DEFINITION. The parameters of the engine that `State.reset` constructs. -/

namespace Sys2Proof.Machine

/-- `N` = 16 registers and `M` = 255 cells, the largest memory the spec admits.
DESIGN CHOICE: 00_scope.md R1 allows every pair of bytes and names none. Unsafe only for claims about `State.reset` itself:
every other claim is over states with any `N` and `M` (log entry 14). -/
def resetParams : Params := { regCount := 16, memSize := 255 }

end Sys2Proof.Machine
end

