-- ==== Sys2Proof/Machine/State.lean ====
section
/-! DEFINITION. The state of the engine (spec/10_state.md R10 to R22), the reasons a step or a host call can stop, and reset. -/

namespace Sys2Proof.Machine

/-- Memory as (address, byte) pairs, addresses strictly rising, no pair with the byte 0, which is what an unlisted cell
holds (10_state.md R12, R22; log entry 19). The canonical form is `Memory.wf` of Ops.lean. -/
abbrev Memory := List Host.Cell

/-- The fault latch (10_state.md R20, 60_exceptions.md R152): no fault, or which index was out of bounds.
UNVERIFIED: the latch is the spec's decision D8. Safe: a run that the source might let go on stops here (log entry 3). -/
inductive FaultLatch where
  /-- cause 0, index 0 -/
  | none
  /-- cause 1: `OutOfBounds(reg, index)` -/
  | register (index : Byte)
  /-- cause 2: `OutOfBounds(mem, index)` -/
  | memory (index : Byte)
  deriving DecidableEq, Repr

/-- The 2-bit cause code (60_exceptions.md R152). -/
def FaultLatch.cause : FaultLatch → BitVec 2
  | .none => 0
  | .register _ => 1
  | .memory _ => 2

/-- The recorded index (60_exceptions.md R152). -/
def FaultLatch.index : FaultLatch → Byte
  | .none => 0
  | .register i => i
  | .memory a => a

/-- Why a step stops the machine. -/
inductive Fault where
  /-- Raised by `step` on a state whose latch holds `OutOfBounds(reg, index)`: the run loop performs no iteration
  (45_run_loop.md R130, 60_exceptions.md R154). Safe: nothing is concluded past it (log entry 17). -/
  | outOfBoundsRegister (index : Byte)
  /-- Raised by `step` on a state whose latch holds `OutOfBounds(mem, index)`. Safe, as above (log entry 17). -/
  | outOfBoundsMemory (index : Byte)
  deriving DecidableEq, Repr

/-- Why something is given no meaning. -/
inductive Refusal where
  /-- The interface's name for an instruction without a meaning. No arm of `exec` raises it: all 17 have theirs. Safe. -/
  | notModelled (mnemonic : String)
  /-- Raised by `hostDo` for a host `ExecuteOne` or `Load` while a fault is latched: "a model should refuse them"
  (60_exceptions.md R154, decision D16). No step raises it. Safe (log entry 11). -/
  | hostCallAfterFault
  deriving DecidableEq, Repr

/-- The whole state of one engine (10_state.md section 1). `N` and `M`, fixed from reset on, stand in it as the length of
`regs` and as `memSize`. DESIGN CHOICE: the spec calls them parameters, not state; safe, no step changes them (log entry 15). -/
structure State where
  /-- `x[0]`, `x[1]`, … (R10). -/
  regs : List Byte
  /-- `M` (00_scope.md R1). -/
  memSize : Byte
  /-- `mem[0]`..`mem[M-1]` (R12). -/
  mem : Memory
  /-- `PC` (R13). -/
  pc : Word
  /-- `IR`, opcode in bits 15:8, first operand in 7:0 (R15). -/
  ir : Word
  /-- `SR` = {O, C, N, Z} (R16). -/
  sr : Nibble
  /-- `SP`, which no instruction touches (R18). -/
  sp : Byte
  /-- `halted` (R19). -/
  halted : Bool
  /-- `fault` (R20). -/
  fault : FaultLatch
  deriving DecidableEq, Repr

/-- The register count `N`. -/
def State.N (s : State) : Nat := s.regs.length

/-- The memory size `M`. -/
def State.M (s : State) : Nat := s.memSize.toNat

/-- Reset with parameters `(N, M)` (10_state.md R22, 70_reset_and_hazards.md R180). `SP` is `(M - 1) mod 256`, 0xFF for
`M` = 0 (decision D4, log entry 5); `IR` is 0x0000 (decision D5, log entry 4). -/
def State.resetWith (p : Params) : State where
  regs := List.replicate p.regCount.toNat 0
  memSize := p.memSize
  mem := []
  pc := 0
  ir := 0
  sr := 0
  sp := p.memSize - 1
  halted := false
  fault := .none

/-- The machine right after reset, for the parameters of Params.lean. -/
def State.reset : State := State.resetWith resetParams

end Sys2Proof.Machine
end

