-- ==== Sys2Proof/Machine/Ops.lean ====
section
/-! DEFINITION. The named operations over memory, registers and the special-purpose state, and taking the one exception. -/

namespace Sys2Proof.Machine

/-- The byte at an address: the listed one, else 0, the reset content of every cell (10_state.md R22). -/
def Memory.read : Memory → Nat → Byte
  | [], _ => 0
  | c :: rest, a => if c.1 = a then c.2 else Memory.read rest a

/-- The memory with no entry at an address. -/
def Memory.erase (m : Memory) (a : Nat) : Memory := m.filter (fun c => c.1 != a)

/-- Put an entry in its place by address. -/
def Memory.insert : Memory → Nat → Byte → Memory
  | [], a, v => [(a, v)]
  | c :: rest, a, v => if a < c.1 then (a, v) :: c :: rest else c :: Memory.insert rest a v

/-- Write one byte: "`mem[addr] <- v` and no other cell changes" (20_memory.md R32). Writing 0 removes the entry. -/
def Memory.write (m : Memory) (a : Nat) (v : Byte) : Memory :=
  if v = 0 then Memory.erase m a else Memory.insert (Memory.erase m a) a v

/-- Copy a byte sequence to ascending addresses from `a` on (the copy of `Load`, 70_reset_and_hazards.md R182). -/
def Memory.writeFrom : Memory → Nat → List Byte → Memory
  | m, _, [] => m
  | m, a, b :: bs => Memory.writeFrom (Memory.write m a b) (a + 1) bs

/-- The canonical form: addresses strictly rising and no entry holding 0. -/
def Memory.wf : Memory → Bool
  | [] => true
  | c :: rest => c.2 != 0 && rest.all (fun d => decide (c.1 < d.1)) && Memory.wf rest

/-- Register `i`, or nothing where no such register exists (10_state.md R10). -/
def State.reg? (s : State) (i : Nat) : Option Byte := s.regs[i]?

/-- Memory cell `a`, or nothing where no such cell exists (20_memory.md R37). -/
def State.mem? (s : State) (a : Nat) : Option Byte :=
  if a < s.M then some (Memory.read s.mem a) else none

/-- `x[i]`. "Defined only when `i < N`; every rule checks that first" (00_scope.md section 7): no meaning reaches the 0. -/
def State.reg (s : State) (i : Byte) : Byte := (s.reg? i.toNat).getD 0

/-- `x[i] <- v`, under the same condition. -/
def State.setReg (s : State) (i v : Byte) : State := { s with regs := s.regs.set i.toNat v }

/-- `mem[a]`, for an address already checked (20_memory.md R31). -/
def State.readMem (s : State) (a : Nat) : Byte := Memory.read s.mem a

/-- `mem[a] <- v`, for an address already checked (20_memory.md R32). -/
def State.writeMem (s : State) (a : Nat) (v : Byte) : State := { s with mem := Memory.write s.mem a v }

/-- `PC <- v`. -/
def State.setPc (s : State) (v : Word) : State := { s with pc := v }

/-- `IR <- (opcode << 8) | op1` (40_execute_dispatch.md R70). -/
def State.recordIr (s : State) (opcode op1 : Byte) : State := { s with ir := opcode ++ op1 }

/-- `SR <- v`. -/
def State.setSr (s : State) (v : Nibble) : State := { s with sr := v }

/-- `halted <- 1` (10_state.md R19). There is no operation that clears it. -/
def State.halt (s : State) : State := { s with halted := true }

/-- Fault entry (60_exceptions.md R153): "only if fault.cause was 0; a latched fault is never overwritten", and nothing
else changes: no vector, no saved `PC`, no mode. UNVERIFIED: decision D8. Safe (log entry 3). -/
def raiseOutOfBounds (f : FaultLatch) (s : State) : State :=
  match s.fault with
  | .none => { s with fault := f }
  | _ => s

/-- `RegCheck(i)` (40_execute_dispatch.md R73): the fault it raises, if any. -/
def regCheck (i : Byte) (s : State) : Option FaultLatch :=
  if i.toNat < s.N then none else some (.register i)

/-- `MemCheck(a)` (40_execute_dispatch.md R73): the fault it raises, if any. -/
def memCheck (a : Byte) (s : State) : Option FaultLatch :=
  if a.toNat < s.M then none else some (.memory a)

/-- Run an instruction's effect after its checks: the first failing check ends the instruction, which then writes nothing
but the latch (40_execute_dispatch.md R73). Either way the machine has a next state. -/
def checked (failure : Option FaultLatch) (effect : State → State) (s : State) : Host.Outcome State Fault Refusal :=
  match failure with
  | none => .next (effect s)
  | some f => .next (raiseOutOfBounds f s)

end Sys2Proof.Machine
end

