-- ==== Sys2Proof/Machine/Flags.lean ====
section
/-! DEFINITION. The status register's layout (10_state.md R16), the uniform flag derivation (40_execute_dispatch.md R74) and
the result, Carry and Overflow of each operation (R75). -/

namespace Sys2Proof.Machine

/-- `SR` from its four flags: Z bit 0, N bit 1, C bit 2, O bit 3 (10_state.md R16).
UNVERIFIED: the positions are the spec's decision D2. Unsafe only for the numeric reading of `SR` (log entry 2). -/
def packSr (z n c o : Bool) : Nibble :=
  BitVec.ofBool o ++ BitVec.ofBool c ++ BitVec.ofBool n ++ BitVec.ofBool z

/-- The Zero flag. -/
def State.flagZ (s : State) : Bool := s.sr.getLsbD 0

/-- The Negative flag. -/
def State.flagN (s : State) : Bool := s.sr.getLsbD 1

/-- The Carry flag. -/
def State.flagC (s : State) : Bool := s.sr.getLsbD 2

/-- The Overflow flag. -/
def State.flagO (s : State) : Bool := s.sr.getLsbD 3

/-- What an operation computes: the 8-bit result and the two instruction-specific conditions (40_execute_dispatch.md R74). -/
structure AluResult where
  /-- the value written to the destination register -/
  value : Byte
  /-- `c` of `SetFlags(r, c, o)` -/
  carry : Bool
  /-- `o` of `SetFlags(r, c, o)` -/
  overflow : Bool
  deriving DecidableEq, Repr

/-- `SetFlags(r, c, o)`: all four bits are overwritten (40_execute_dispatch.md R74). -/
def setFlags (r : AluResult) (s : State) : State :=
  s.setSr (packSr (r.value == 0) (r.value.getLsbD 7) r.carry r.overflow)

/-- Write a result to its destination register and derive the flags. -/
def writeResult (dst : Byte) (r : AluResult) (s : State) : State :=
  setFlags r (s.setReg dst r.value)

/-- A value with neither Carry nor Overflow: "both default to false when not applicable" (LOAD, MOVE and the logical
operations; 40_execute_dispatch.md R74, R75). -/
def plainResult (v : Byte) : AluResult := { value := v, carry := false, overflow := false }

/-- ADD (R100): Carry when the sum exceeds 255, Overflow when the operands have the same sign and the result the other. -/
def addResult (a b : Byte) : AluResult :=
  { value := a + b
    carry := decide (a.toNat + b.toNat > 255)
    overflow := a.getLsbD 7 == b.getLsbD 7 && (a + b).getLsbD 7 != a.getLsbD 7 }

/-- SUB (R101): Carry is a borrow, Overflow when the signs differ and the result's is not the minuend's. -/
def subResult (a b : Byte) : AluResult :=
  { value := a - b
    carry := decide (a.toNat < b.toNat)
    overflow := a.getLsbD 7 != b.getLsbD 7 && (a - b).getLsbD 7 != a.getLsbD 7 }

/-- INC (R102): Carry on 255, Overflow on 127. -/
def incResult (a : Byte) : AluResult :=
  { value := a + 1, carry := a == 255, overflow := a == 127 }

/-- DEC (R103): Carry on 0, Overflow on 128. -/
def decResult (a : Byte) : AluResult :=
  { value := a - 1, carry := a == 0, overflow := a == 128 }

/-- AND (R110): "bit i of r = a[i] and b[i]". -/
def andResult (a b : Byte) : AluResult := plainResult (a &&& b)

/-- OR (R111). -/
def orResult (a b : Byte) : AluResult := plainResult (a ||| b)

/-- XOR (R112). -/
def xorResult (a b : Byte) : AluResult := plainResult (a ^^^ b)

/-- NOT (R113): `a XOR 0xFF`. -/
def notResult (a : Byte) : AluResult := plainResult (a ^^^ 0xFF)

/-- SHL (R114): Carry is the original high bit; Overflow is never set. -/
def shlResult (a : Byte) : AluResult :=
  { value := a <<< 1, carry := a.getLsbD 7, overflow := false }

/-- SHR (R115): logical; Carry is the original low bit; Overflow is never set. -/
def shrResult (a : Byte) : AluResult :=
  { value := a >>> 1, carry := a.getLsbD 0, overflow := false }

end Sys2Proof.Machine
end

