-- ==== Sys2Proof/Machine/Operands.lean ====
section
/-! DEFINITION. The operand forms of spec/30_encoding.md R53: the checks of each form in order (the table of
40_execute_dispatch.md R73, `op1` before `op2`, decision D9) and the jump target. -/

namespace Sys2Proof.Machine

/-- Form RM: register index, then memory address (LOAD, STORE). -/
def checkRegMem (op1 op2 : Byte) (s : State) : Option FaultLatch :=
  (regCheck op1 s).or (memCheck op2 s)

/-- Form RR: two register indices (MOVE, ADD, SUB, AND, OR, XOR). -/
def checkRegReg (op1 op2 : Byte) (s : State) : Option FaultLatch :=
  (regCheck op1 s).or (regCheck op2 s)

/-- Form R: one register index; `op2` is not examined (INC, DEC, NOT, SHL, SHR; decision D10, log entry 8). -/
def checkReg (op1 : Byte) (s : State) : Option FaultLatch := regCheck op1 s

/-- Form J: the absolute 16-bit target `(high << 8) | low`, not checked against `M`. -/
def jumpTarget (high low : Byte) : Word := high ++ low

end Sys2Proof.Machine
end

