-- ==== Sys2Proof/Machine/Alu.lean ====
section
/-! DEFINITION. The two shapes shared by the register-to-register instructions: all checks, then all reads, then the writes
(spec/40_execute_dispatch.md R73, R77). -/

namespace Sys2Proof.Machine

/-- Two register operands, the first also the destination: both are read before the write, so naming one register twice
uses its old value twice (R77). -/
def binaryOp (f : Byte → Byte → AluResult) (op1 op2 : Byte) (s : State) : Host.Outcome State Fault Refusal :=
  checked (checkRegReg op1 op2 s) (fun s => writeResult op1 (f (s.reg op1) (s.reg op2)) s) s

/-- One register operand, source and destination. -/
def unaryOp (f : Byte → AluResult) (op1 : Byte) (s : State) : Host.Outcome State Fault Refusal :=
  checked (checkReg op1 s) (fun s => writeResult op1 (f (s.reg op1)) s) s

end Sys2Proof.Machine
end

