-- ==== Sys2Proof/Machine/Arithmetic.lean ====
section
/-! DEFINITION. ADD, SUB, INC, DEC (spec/42_arithmetic.md). -/

namespace Sys2Proof.Machine

/-- ADD (R100). -/
def execAdd (reg1 reg2 : Byte) (s : State) : Host.Outcome State Fault Refusal := binaryOp addResult reg1 reg2 s

/-- SUB (R101). -/
def execSub (reg1 reg2 : Byte) (s : State) : Host.Outcome State Fault Refusal := binaryOp subResult reg1 reg2 s

/-- INC (R102). -/
def execInc (reg _ignored : Byte) (s : State) : Host.Outcome State Fault Refusal := unaryOp incResult reg s

/-- DEC (R103). -/
def execDec (reg _ignored : Byte) (s : State) : Host.Outcome State Fault Refusal := unaryOp decResult reg s

end Sys2Proof.Machine
end

