-- ==== Sys2Proof/Machine/Control.lean ====
section
/-! DEFINITION. JMP, JZ, JNZ, HALT (spec/44_control.md). None of them checks an operand. -/

namespace Sys2Proof.Machine

/-- JMP (R120). -/
def execJmp (high low : Byte) (s : State) : Host.Outcome State Fault Refusal :=
  .next (s.setPc (jumpTarget high low))

/-- JZ (R121): not taken, `PC` keeps its value on entry. -/
def execJz (high low : Byte) (s : State) : Host.Outcome State Fault Refusal :=
  .next (if s.flagZ then s.setPc (jumpTarget high low) else s)

/-- JNZ (R122). -/
def execJnz (high low : Byte) (s : State) : Host.Outcome State Fault Refusal :=
  .next (if s.flagZ then s else s.setPc (jumpTarget high low))

/-- HALT (R123). -/
def execHalt (_ignored1 _ignored2 : Byte) (s : State) : Host.Outcome State Fault Refusal := .next s.halt

end Sys2Proof.Machine
end

