-- ==== Sys2Proof/Machine/LogicShift.lean ====
section
/-! DEFINITION. AND, OR, XOR, NOT, SHL, SHR (spec/43_logic_shift.md). -/

namespace Sys2Proof.Machine

/-- AND (R110). -/
def execAnd (reg1 reg2 : Byte) (s : State) : Host.Outcome State Fault Refusal := binaryOp andResult reg1 reg2 s

/-- OR (R111). -/
def execOr (reg1 reg2 : Byte) (s : State) : Host.Outcome State Fault Refusal := binaryOp orResult reg1 reg2 s

/-- XOR (R112). -/
def execXor (reg1 reg2 : Byte) (s : State) : Host.Outcome State Fault Refusal := binaryOp xorResult reg1 reg2 s

/-- NOT (R113). -/
def execNot (reg _ignored : Byte) (s : State) : Host.Outcome State Fault Refusal := unaryOp notResult reg s

/-- SHL (R114). -/
def execShl (reg _ignored : Byte) (s : State) : Host.Outcome State Fault Refusal := unaryOp shlResult reg s

/-- SHR (R115). -/
def execShr (reg _ignored : Byte) (s : State) : Host.Outcome State Fault Refusal := unaryOp shrResult reg s

end Sys2Proof.Machine
end

