-- ==== Sys2Proof/Machine/Movement.lean ====
section
/-! DEFINITION. LOAD, STORE, MOVE (spec/41_data_movement.md). A meaning is the body that `ExecuteOne` runs after it has
written `IR` (40_execute_dispatch.md R70 step 2). -/

namespace Sys2Proof.Machine

/-- `v <- mem[addr]`, then the write of the destination with its flags (R90). -/
def loadByte (dst addr : Byte) (s : State) : State := writeResult dst (plainResult (s.readMem addr.toNat)) s

/-- `mem[addr] <- x[src]` (R91). -/
def storeByte (src addr : Byte) (s : State) : State := s.writeMem addr.toNat (s.reg src)

/-- `x[dst] <- x[src]` with its flags (R92). -/
def moveByte (src dst : Byte) (s : State) : State := writeResult dst (plainResult (s.reg src)) s

/-- LOAD (R90). -/
def execLoad (dst addr : Byte) (s : State) : Host.Outcome State Fault Refusal :=
  checked (checkRegMem dst addr s) (loadByte dst addr) s

/-- STORE (R91): no flag is written. -/
def execStore (src addr : Byte) (s : State) : Host.Outcome State Fault Refusal :=
  checked (checkRegMem src addr s) (storeByte src addr) s

/-- MOVE (R92): source first, destination second. -/
def execMove (src dst : Byte) (s : State) : Host.Outcome State Fault Refusal :=
  checked (checkRegReg src dst s) (moveByte src dst) s

end Sys2Proof.Machine
end

