-- ==== Sys2Proof/Machine/Dispatch.lean ====
section
/-! DEFINITION. One arm per instruction: step 2 of `ExecuteOne` (spec/40_execute_dispatch.md R70), `IR` already written. -/

namespace Sys2Proof.Machine

def exec (i : Instr) (s : State) : Host.Outcome State Fault Refusal :=
  match i with
  | .load dst addr => Sys2Proof.Machine.execLoad dst addr s
  | .store src addr => Sys2Proof.Machine.execStore src addr s
  | .move src dst => Sys2Proof.Machine.execMove src dst s
  | .add reg1 reg2 => Sys2Proof.Machine.execAdd reg1 reg2 s
  | .sub reg1 reg2 => Sys2Proof.Machine.execSub reg1 reg2 s
  | .inc reg ignored => Sys2Proof.Machine.execInc reg ignored s
  | .dec reg ignored => Sys2Proof.Machine.execDec reg ignored s
  | .and reg1 reg2 => Sys2Proof.Machine.execAnd reg1 reg2 s
  | .or reg1 reg2 => Sys2Proof.Machine.execOr reg1 reg2 s
  | .xor reg1 reg2 => Sys2Proof.Machine.execXor reg1 reg2 s
  | .not reg ignored => Sys2Proof.Machine.execNot reg ignored s
  | .shl reg ignored => Sys2Proof.Machine.execShl reg ignored s
  | .shr reg ignored => Sys2Proof.Machine.execShr reg ignored s
  | .jmp high low => Sys2Proof.Machine.execJmp high low s
  | .jz high low => Sys2Proof.Machine.execJz high low s
  | .jnz high low => Sys2Proof.Machine.execJnz high low s
  | .halt ignored1 ignored2 => Sys2Proof.Machine.execHalt ignored1 ignored2 s

end Sys2Proof.Machine
end

