-- ==== Sys2Proof/Machine/Execute.lean ====
section
/-! DEFINITION. `ExecuteOne` (spec/40_execute_dispatch.md R70 to R72). -/

namespace Sys2Proof.Machine

/-- `ExecuteOne(opcode, op1, op2)` under an opcode map: record `IR`, then run the instruction's body, or halt on an opcode
that is not in the table (R70, R72). It neither reads `halted` nor reads or advances `PC` (R71). `IR` is written before
every check, so also when the instruction then faults (decision D19, log entry 12). -/
def executeOneWith (opc : OpcodeMap) (opcode op1 op2 : Byte) (s : State) : Host.Outcome State Fault Refusal :=
  match lookupOpcode opc opcode with
  | some m => exec (instrOf m op1 op2) (s.recordIr opcode op1)
  | none => .next (s.recordIr opcode op1).halt

/-- `ExecuteOne` under the spec's opcode map. -/
def executeOne (opcode op1 op2 : Byte) (s : State) : Host.Outcome State Fault Refusal :=
  executeOneWith opcodeTable opcode op1 op2 s

end Sys2Proof.Machine
end

