-- ==== Sys2Proof/Machine/RunLoop.lean ====
section
/-! DEFINITION. The run loop: fetch, sequencing of `PC`, halting (spec/45_run_loop.md R130 to R134). -/

namespace Sys2Proof.Machine

/-- What a fetch at `PC` finds (45_run_loop.md R131). -/
inductive Fetched where
  /-- `PC >= M`: no byte at `PC` (R132). -/
  | noByte
  /-- `PC < M` but fewer than two bytes after the opcode (R133); the opcode byte is read and discarded. -/
  | partialFetch
  /-- all three bytes (R134) -/
  | full (opcode op1 op2 : Byte)
  deriving DecidableEq, Repr

/-- The fetch checks the bounds itself and never raises `OutOfBounds` (20_memory.md R34). -/
def fetch (s : State) : Fetched :=
  let p := s.pc.toNat
  if s.M ≤ p then .noByte
  else if s.M ≤ p + 2 then .partialFetch
  else .full (s.readMem p) (s.readMem (p + 1)) (s.readMem (p + 2))

/-- `PC` advanced by `n`. It never wraps where the run loop uses it: there `PC < M <= 255` (10_state.md R14). -/
def State.advancePc (s : State) (n : Nat) : State := s.setPc (s.pc + BitVec.ofNat 16 n)

/-- One iteration (45_run_loop.md R131). With no byte at `PC` the `PC` stays (R132, decision D7); a partial fetch leaves
`PC = p + 1` and `IR` alone (R133, decision D20); a full fetch leaves `p + 3` before dispatch (R134) (log entry 7). -/
def runIterationWith (opc : OpcodeMap) (s : State) : Host.Outcome State Fault Refusal :=
  match fetch s with
  | .noByte => .next s.halt
  | .partialFetch => .next (s.advancePc 1).halt
  | .full opcode op1 op2 => executeOneWith opc opcode op1 op2 (s.advancePc 3)

/-- The test the run loop makes before every iteration (45_run_loop.md R130), and the iteration. With a fault latched there
is no iteration and the step reports the fault (log entry 17); with `halted` = 1 there is no iteration and nothing changes
(log entry 16). -/
def runLoopStep (opc : OpcodeMap) (s : State) : Host.Outcome State Fault Refusal :=
  match s.fault with
  | .register i => .fault (.outOfBoundsRegister i)
  | .memory a => .fault (.outOfBoundsMemory a)
  | .none => if s.halted then .next s else runIterationWith opc s

/-- A state whose next step fetches at `PC` has `halted` = 0, no fault latched, and three cells at `PC`. Where there is
no room at `PC`, `PC` becomes 0 and the memory size 255 (log entry 18). -/
def readyToFetch (s : State) : State :=
  let s := { s with halted := false, fault := .none }
  if s.pc.toNat + 2 < s.M then s else { s with pc := 0, memSize := 255 }

/-- A state with bytes stored from `PC` on, ready to fetch them. -/
def placeAtPc (bytes : List Byte) (s : State) : State :=
  let s := readyToFetch s
  { s with mem := Memory.writeFrom s.mem s.pc.toNat bytes }

end Sys2Proof.Machine
end

