-- ==== Sys2Proof/Machine/Step.lean ====
section
/-! DEFINITION. The machine's step: one turn of the loop `Run()` (spec/45_run_loop.md R130, R131), under the spec's opcode map. -/

namespace Sys2Proof.Machine

/-- One step of the run loop. -/
def step (s : State) : Host.Outcome State Fault Refusal := runLoopStep opcodeTable s

/-- The state with an instruction, its bits numbered as opcode_table.json numbers them, stored at `PC`. -/
def State.withFetchWord (s : State) (nbits w : Nat) : State := placeAtPc (tableBytes nbits w) s

end Sys2Proof.Machine
end

