-- ==== Sys2Proof/Machine/HostInterface.lean ====
section
/-! DEFINITION. The host's operations (spec/70_reset_and_hazards.md R186, R187), all but `Run()`, which need not end and
stands in Machine/HostRun.lean. The host acts between steps only (00_scope.md R4, decision D13; log entry 21). -/

namespace Sys2Proof.Machine

/-- A host operation that always ends. A register or memory index is any natural number: one out of range is refused
(60_exceptions.md R159).
A value written has exactly the element's width (R187). There is no write of `halted` or `fault` (decision D14). -/
inductive HostOp where
  | reset (p : Params)
  | load (bytes : List Byte)
  | executeOne (opcode op1 op2 : Byte)
  | readReg (i : Nat)
  | readMem (a : Nat)
  | readPc
  | readIr
  | readSr
  | readSp
  | readHalted
  | readFault
  | writeReg (i : Nat) (v : Byte)
  | writeMem (a : Nat) (v : Byte)
  | writePc (v : Word)
  | writeIr (v : Word)
  | writeSr (v : Nibble)
  | writeSp (v : Byte)
  deriving DecidableEq, Repr

/-- What the host gets back. -/
inductive HostReply where
  /-- nothing -/
  | done
  /-- `Load` of a program longer than memory (60_exceptions.md R158) -/
  | capacityExceeded
  /-- an accessor's index is out of range (60_exceptions.md R159) -/
  | indexOutOfBounds
  /-- the `OutOfBounds` that `ExecuteOne` or `Run` latched -/
  | raised (f : FaultLatch)
  | byte (v : Byte)
  | word (v : Word)
  | status (v : Nibble)
  | bit (b : Bool)
  | latch (f : FaultLatch)
  deriving DecidableEq, Repr

/-- `Load(bytes)` (70_reset_and_hazards.md R182): copy to `[0, L)` and alter nothing else. A program longer than memory is
refused and nothing is written (R183, decision D11; log entry 9). -/
def hostLoad (bytes : List Byte) (s : State) : State × HostReply :=
  if bytes.length ≤ s.M then ({ s with mem := Memory.writeFrom s.mem 0 bytes }, .done)
  else (s, .capacityExceeded)

/-- What `ExecuteOne` and `Run` report to the host: "nothing, or the `OutOfBounds` it latched" (70_reset_and_hazards.md R186). -/
def latchedReply (s : State) : HostReply :=
  match s.fault with
  | .none => .done
  | f => .raised f

/-- A host `ExecuteOne`: one instruction without fetch, whatever `halted` is (40_execute_dispatch.md R71). -/
def hostExecuteOne (opcode op1 op2 : Byte) (s : State) : Host.Outcome (State × HostReply) Fault Refusal :=
  match executeOne opcode op1 op2 s with
  | .next t => .next (t, latchedReply t)
  | .fault r => .fault r
  | .refused r => .refused r

/-- `ExecuteOne` and `Load` are given no meaning while a fault is latched: they are refused (60_exceptions.md R154,
decision D16; log entry 11). -/
def unlessFaulted (s : State) (act : Host.Outcome (State × HostReply) Fault Refusal) :
    Host.Outcome (State × HostReply) Fault Refusal :=
  match s.fault with
  | .none => act
  | _ => .refused .hostCallAfterFault

/-- A read accessor for an indexed element: refused out of range, no side effect (R187). -/
def replyByte (v : Option Byte) : HostReply :=
  match v with
  | some b => .byte b
  | none => .indexOutOfBounds

/-- A write accessor for register `i` (R187); out of range nothing changes and no fault is latched (60_exceptions.md R159). -/
def hostWriteReg (i : Nat) (v : Byte) (s : State) : State × HostReply :=
  if i < s.N then ({ s with regs := s.regs.set i v }, .done) else (s, .indexOutOfBounds)

/-- A write accessor for memory cell `a` (R187); out of range nothing changes (60_exceptions.md R159). -/
def hostWriteMem (a : Nat) (v : Byte) (s : State) : State × HostReply :=
  if a < s.M then (s.writeMem a v, .done) else (s, .indexOutOfBounds)

/-- One host operation on a state: the state after and what the host gets back, or a refusal (R186, R187). -/
def hostDo (op : HostOp) (s : State) : Host.Outcome (State × HostReply) Fault Refusal :=
  match op with
  | .reset p => .next (State.resetWith p, .done)
  | .load bytes => unlessFaulted s (.next (hostLoad bytes s))
  | .executeOne opcode op1 op2 => unlessFaulted s (hostExecuteOne opcode op1 op2 s)
  | .readReg i => .next (s, replyByte (s.reg? i))
  | .readMem a => .next (s, replyByte (s.mem? a))
  | .readPc => .next (s, .word s.pc)
  | .readIr => .next (s, .word s.ir)
  | .readSr => .next (s, .status s.sr)
  | .readSp => .next (s, .byte s.sp)
  | .readHalted => .next (s, .bit s.halted)
  | .readFault => .next (s, .latch s.fault)
  | .writeReg i v => .next (hostWriteReg i v s)
  | .writeMem a v => .next (hostWriteMem a v s)
  | .writePc v => .next (s.setPc v, .done)
  | .writeIr v => .next ({ s with ir := v }, .done)
  | .writeSr v => .next (s.setSr v, .done)
  | .writeSp v => .next ({ s with sp := v }, .done)

end Sys2Proof.Machine
end

