-- ==== Sys2Proof/Machine/HostRun.lean ====
section
/-! DEFINITION. `Run()` and, with it, the whole host interface (spec/45_run_loop.md R130, R136, R137;
70_reset_and_hazards.md R186). -/

namespace Sys2Proof.Machine

/-- `Running`: neither halted nor faulted (45_run_loop.md R130). -/
def State.Running (s : State) : Prop := s.halted = false ∧ s.fault = .none

/-- The only final state: halted and no fault (45_run_loop.md R137). -/
def State.Final (s : State) : Prop := s.halted = true ∧ s.fault = .none

/-- `Faulted`: gone wrong, never a final state (45_run_loop.md R130, R137). -/
def State.Faulted (s : State) : Prop := s.fault ≠ .none

/-- `Run()` from `s` ends in `t` (45_run_loop.md R130): iterate while neither halted nor faulted. A run that never ends
relates `s` to no state (R136). -/
inductive RunEnds : State → State → Prop where
  | stop {s : State} (h : ¬ s.Running) : RunEnds s s
  | more {s t u : State} (h : s.Running) (hs : step s = .next t) (hr : RunEnds t u) : RunEnds s u

/-- `r` is what the host gets back from a `Run()` that began in `s` and ended in `t`: "nothing, or the `OutOfBounds` it
latched" (70_reset_and_hazards.md R186). Where a fault was latched before the call, the run latched none itself: the
model lets the host get back either nothing or the fault that is latched (DESIGN CHOICE, log entry 22). -/
def RunReplies (s t : State) (r : HostReply) : Prop :=
  r = latchedReply t ∨ (s.Faulted ∧ r = .done)

/-- A call of the host: every row of the table of 70_reset_and_hazards.md R186. -/
inductive HostCall where
  | op (o : HostOp)
  | run
  deriving DecidableEq, Repr

/-- The host makes a call in state `s`, gets `r` back, and the engine is then in state `t` (R186). A refused call and a run
that never ends get nothing back: they relate `s` to no state. -/
inductive HostAnswers : HostCall → State → State → HostReply → Prop where
  | op {o : HostOp} {s t : State} {r : HostReply} (h : hostDo o s = .next (t, r)) : HostAnswers (.op o) s t r
  | run {s t : State} {r : HostReply} (h : RunEnds s t) (hr : RunReplies s t r) : HostAnswers .run s t r

end Sys2Proof.Machine
end

