-- ==== Sys2Proof/WellFormed.lean ====
section
/-! DEFINITION. Well-formedness of an instruction on an engine of `N` registers and `M` cells. Every instruction has an
encoding (operands are whole bytes) and decoding checks no operand (30_encoding.md R58); what can be ill-formed is an
operand that names no register or no cell (the table of 40_execute_dispatch.md R73). Executing an ill-formed instruction
is no refusal: it takes the `OutOfBounds` exception. -/

namespace Sys2Proof

/-- The operands of the instruction exist on an engine with `N` registers and `M` cells, row by row as the table of
40_execute_dispatch.md R73. -/
def Instr.wellFormed (N M : Nat) : Instr → Bool
  | .load r a | .store r a => decide (r.toNat < N) && decide (a.toNat < M)
  | .move p q | .add p q | .sub p q | .and p q | .or p q | .xor p q => decide (p.toNat < N) && decide (q.toNat < N)
  | .inc r _ | .dec r _ | .not r _ | .shl r _ | .shr r _ => decide (r.toNat < N)
  | .jmp _ _ | .jz _ _ | .jnz _ _ | .halt _ _ => true

end Sys2Proof
end

