-- ==== Sys2Proof/Safety.lean ====
section
/-! DEFINITION. The terms claims are stated in: the invariant, and what an instruction's result, frame and exceptions are. -/

namespace Sys2Proof.Machine

/-- The invariant of the model: at most 255 registers (00_scope.md R1), memory in canonical form, no cell listed at or above `M`. -/
def State.Inv (s : State) : Prop :=
  s.regs.length ≤ 255 ∧ Memory.wf s.mem = true ∧ ∀ c ∈ s.mem, c.1 < s.M

/-- The special-purpose state outside registers, memory, `PC` and `SR` is the same, and so are `N` and `M`. -/
structure SameRest (s t : State) : Prop where
  count : t.N = s.N
  size : t.M = s.M
  ir : t.ir = s.ir
  sp : t.sp = s.sp
  halted : t.halted = s.halted
  fault : t.fault = s.fault

/-- What a flag-producing instruction leaves: the destination's value, the four flags of `SetFlags(v, c, o)`
(40_execute_dispatch.md R74), and the frame: every other register, every byte of memory and everything else as before. -/
structure ResultIn (s t : State) (dst : Nat) (v : Byte) (c o : Bool) : Prop where
  value : t.reg? dst = some v
  zero : t.flagZ = decide (v = 0)
  negative : t.flagN = v.getLsbD 7
  carry : t.flagC = c
  overflow : t.flagO = o
  others : ∀ j, j ≠ dst → t.reg? j = s.reg? j
  memory : ∀ a, t.mem? a = s.mem? a
  pc : t.pc = s.pc
  rest : SameRest s t

/-- Only `PC` may differ. -/
structure OnlyPc (s t : State) : Prop where
  regs : ∀ j, t.reg? j = s.reg? j
  memory : ∀ a, t.mem? a = s.mem? a
  sr : t.sr = s.sr
  rest : SameRest s t

/-- The instruction raises `OutOfBounds` (60_exceptions.md R153): a next state whose latch holds `f` if it held none, and
which is otherwise the state on entry. -/
def Raises (i : Instr) (s : State) (f : FaultLatch) : Prop :=
  exec i s = .next { s with fault := if s.fault = .none then f else s.fault }

/-- The exceptions of the two-register form (R73): `op1` is checked before `op2`. -/
def RaisesRegReg (i : Instr) (op1 op2 : Byte) (s : State) : Prop :=
  (s.N ≤ op1.toNat → Raises i s (.register op1)) ∧
  (op1.toNat < s.N → s.N ≤ op2.toNat → Raises i s (.register op2))

/-- The exceptions of the register and address form (R73). -/
def RaisesRegMem (i : Instr) (op1 op2 : Byte) (s : State) : Prop :=
  (s.N ≤ op1.toNat → Raises i s (.register op1)) ∧
  (op1.toNat < s.N → s.M ≤ op2.toNat → Raises i s (.memory op2))

end Sys2Proof.Machine

namespace Sys2Proof

/-- The register a flag-producing instruction writes (10_state.md R17 lists them); the others have none. -/
def Instr.dest? : Instr → Option Byte
  | .load d _ | .move _ d => some d
  | .add d _ | .sub d _ | .inc d _ | .dec d _ | .and d _ | .or d _ | .xor d _ | .not d _ | .shl d _ | .shr d _ => some d
  | .store _ _ | .jmp _ _ | .jz _ _ | .jnz _ _ | .halt _ _ => none

/-- The Carry column of the table of 40_execute_dispatch.md R75: `a` and `b` are the original values of `x[op1]` and `x[op2]`. -/
def Instr.carryCondition (a b : Byte) : Instr → Bool
  | .add _ _ => decide (a.toNat + b.toNat > 255)
  | .sub _ _ => decide (a.toNat < b.toNat)
  | .inc _ _ => decide (a.toNat = 255)
  | .dec _ _ => decide (a.toNat = 0)
  | .shl _ _ => a.getLsbD 7
  | .shr _ _ => a.getLsbD 0
  | .load _ _ | .store _ _ | .move _ _ | .and _ _ | .or _ _ | .xor _ _ | .not _ _ => false
  | .jmp _ _ | .jz _ _ | .jnz _ _ | .halt _ _ => false

/-- The Overflow column of the same table; `r` is the result. -/
def Instr.overflowCondition (a b r : Byte) : Instr → Bool
  | .add _ _ => a.getLsbD 7 == b.getLsbD 7 && r.getLsbD 7 != a.getLsbD 7
  | .sub _ _ => a.getLsbD 7 != b.getLsbD 7 && r.getLsbD 7 != a.getLsbD 7
  | .inc _ _ => decide (a.toNat = 127)
  | .dec _ _ => decide (a.toNat = 128)
  | .load _ _ | .store _ _ | .move _ _ | .and _ _ | .or _ _ | .xor _ _ | .not _ _ | .shl _ _ | .shr _ _ => false
  | .jmp _ _ | .jz _ _ | .jnz _ _ | .halt _ _ => false

end Sys2Proof
end

