-- ==== Sys2Proof/Certificates/Slice0/Obligations.lean ====
section
/-! DEFINITION. The statements for the provers, from the spec's numbered rules. "Read `some v`" of `reg?` and `mem?` says that
the register or cell exists and holds `v`, so those hypotheses are the operand checks of 40_execute_dispatch.md R73. -/

open Sys2Proof Sys2Proof.Machine

/-- LOAD (41_data_movement.md R90): result, flags, frame, exceptions, encoding. The opcode byte is decision D1 of the spec
(log entry 1) and the form of the fault decision D8 (log entry 3); so in every instruction statement below. -/
def Obligations.LoadReadsMemory : Prop :=
  ∀ (d a : Byte) (s : State),
    (∀ v, d.toNat < s.N → s.mem? a.toNat = some v →
      ∃ t, exec (.load d a) s = .next t ∧ ResultIn s t d.toNat v false false) ∧
    RaisesRegMem (.load d a) d a s ∧
    decode [0x00, d, a] = .instr (.load d a) []

/-- STORE (41_data_movement.md R91): the byte stored to is at `a.toNat`, every other byte reads as before, and no register
and no flag changes. -/
def Obligations.StoreWritesMemory : Prop :=
  ∀ (r a : Byte) (s : State),
    (∀ v, s.reg? r.toNat = some v → a.toNat < s.M →
      ∃ t, exec (.store r a) s = .next t ∧ t.mem? a.toNat = some v ∧
        (∀ b, b ≠ a.toNat → t.mem? b = s.mem? b) ∧ (∀ j, t.reg? j = s.reg? j) ∧
        t.sr = s.sr ∧ t.pc = s.pc ∧ SameRest s t) ∧
    RaisesRegMem (.store r a) r a s ∧
    decode [0x01, r, a] = .instr (.store r a) []

/-- MOVE (41_data_movement.md R92): source first, destination second; the flags are derived even when both are one register. -/
def Obligations.MoveCopiesRegister : Prop :=
  ∀ (p d : Byte) (s : State),
    (∀ v, s.reg? p.toNat = some v → d.toNat < s.N →
      ∃ t, exec (.move p d) s = .next t ∧ ResultIn s t d.toNat v false false) ∧
    RaisesRegReg (.move p d) p d s ∧
    decode [0x02, p, d] = .instr (.move p d) []

/-- ADD (42_arithmetic.md R100), on unbounded numbers reduced mod 256. -/
def Obligations.AddWrapsAndSetsFlags : Prop :=
  ∀ (p q : Byte) (s : State),
    (∀ x y, s.reg? p.toNat = some x → s.reg? q.toNat = some y →
      let r : Byte := BitVec.ofNat 8 ((x.toNat + y.toNat) % 256)
      ∃ t, exec (.add p q) s = .next t ∧
        ResultIn s t p.toNat r (decide (x.toNat + y.toNat > 255))
          (x.getLsbD 7 == y.getLsbD 7 && r.getLsbD 7 != x.getLsbD 7)) ∧
    RaisesRegReg (.add p q) p q s ∧
    decode [0x03, p, q] = .instr (.add p q) []

/-- SUB (42_arithmetic.md R101): mathematical mod; C is a borrow. -/
def Obligations.SubWrapsAndSetsFlags : Prop :=
  ∀ (p q : Byte) (s : State),
    (∀ x y, s.reg? p.toNat = some x → s.reg? q.toNat = some y →
      let d : Int := x.toNat - y.toNat
      let r : Byte := BitVec.ofNat 8 (d % 256).toNat
      ∃ t, exec (.sub p q) s = .next t ∧
        ResultIn s t p.toNat r (decide (d < 0))
          (x.getLsbD 7 != y.getLsbD 7 && r.getLsbD 7 != x.getLsbD 7)) ∧
    RaisesRegReg (.sub p q) p q s ∧
    decode [0x04, p, q] = .instr (.sub p q) []

/-- INC (42_arithmetic.md R102), for every value of the ignored byte `k`. -/
def Obligations.IncAddsOne : Prop :=
  ∀ (p k : Byte) (s : State),
    (∀ x, s.reg? p.toNat = some x →
      ∃ t, exec (.inc p k) s = .next t ∧
        ResultIn s t p.toNat (BitVec.ofNat 8 ((x.toNat + 1) % 256)) (decide (x.toNat = 255)) (decide (x.toNat = 127))) ∧
    (s.N ≤ p.toNat → Raises (.inc p k) s (.register p)) ∧
    decode [0x05, p, k] = .instr (.inc p k) []

/-- DEC (42_arithmetic.md R103), for every value of the ignored byte `k`. -/
def Obligations.DecSubtractsOne : Prop :=
  ∀ (p k : Byte) (s : State),
    (∀ x, s.reg? p.toNat = some x →
      ∃ t, exec (.dec p k) s = .next t ∧
        ResultIn s t p.toNat (BitVec.ofNat 8 (((x.toNat : Int) - 1) % 256).toNat)
          (decide (x.toNat = 0)) (decide (x.toNat = 128))) ∧
    (s.N ≤ p.toNat → Raises (.dec p k) s (.register p)) ∧
    decode [0x06, p, k] = .instr (.dec p k) []

/-- AND (43_logic_shift.md R110), bit by bit. -/
def Obligations.AndActsBitwise : Prop :=
  ∀ (p q : Byte) (s : State),
    (∀ x y, s.reg? p.toNat = some x → s.reg? q.toNat = some y →
      ∃ t r, exec (.and p q) s = .next t ∧ ResultIn s t p.toNat r false false ∧
        ∀ k, k < 8 → r.getLsbD k = (x.getLsbD k && y.getLsbD k)) ∧
    RaisesRegReg (.and p q) p q s ∧
    decode [0x07, p, q] = .instr (.and p q) []

/-- OR (43_logic_shift.md R111), bit by bit. -/
def Obligations.OrActsBitwise : Prop :=
  ∀ (p q : Byte) (s : State),
    (∀ x y, s.reg? p.toNat = some x → s.reg? q.toNat = some y →
      ∃ t r, exec (.or p q) s = .next t ∧ ResultIn s t p.toNat r false false ∧
        ∀ k, k < 8 → r.getLsbD k = (x.getLsbD k || y.getLsbD k)) ∧
    RaisesRegReg (.or p q) p q s ∧
    decode [0x08, p, q] = .instr (.or p q) []

/-- XOR (43_logic_shift.md R112), bit by bit. -/
def Obligations.XorActsBitwise : Prop :=
  ∀ (p q : Byte) (s : State),
    (∀ x y, s.reg? p.toNat = some x → s.reg? q.toNat = some y →
      ∃ t r, exec (.xor p q) s = .next t ∧ ResultIn s t p.toNat r false false ∧
        ∀ k, k < 8 → r.getLsbD k = (x.getLsbD k != y.getLsbD k)) ∧
    RaisesRegReg (.xor p q) p q s ∧
    decode [0x09, p, q] = .instr (.xor p q) []

/-- NOT (43_logic_shift.md R113): 255 minus the old value. -/
def Obligations.NotComplements : Prop :=
  ∀ (p k : Byte) (s : State),
    (∀ x, s.reg? p.toNat = some x →
      ∃ t, exec (.not p k) s = .next t ∧ ResultIn s t p.toNat (BitVec.ofNat 8 (255 - x.toNat)) false false) ∧
    (s.N ≤ p.toNat → Raises (.not p k) s (.register p)) ∧
    decode [0x0A, p, k] = .instr (.not p k) []

/-- SHL (43_logic_shift.md R114): by one, whatever the ignored byte `k` is. -/
def Obligations.ShlDoubles : Prop :=
  ∀ (p k : Byte) (s : State),
    (∀ x, s.reg? p.toNat = some x →
      ∃ t, exec (.shl p k) s = .next t ∧
        ResultIn s t p.toNat (BitVec.ofNat 8 (x.toNat * 2 % 256)) (x.getLsbD 7) false) ∧
    (s.N ≤ p.toNat → Raises (.shl p k) s (.register p)) ∧
    decode [0x0B, p, k] = .instr (.shl p k) []

/-- SHR (43_logic_shift.md R115): logical, so the Negative flag is clear after it. -/
def Obligations.ShrHalves : Prop :=
  ∀ (p k : Byte) (s : State),
    (∀ x, s.reg? p.toNat = some x →
      ∃ t, exec (.shr p k) s = .next t ∧ t.flagN = false ∧
        ResultIn s t p.toNat (BitVec.ofNat 8 (x.toNat / 2)) (x.getLsbD 0) false) ∧
    (s.N ≤ p.toNat → Raises (.shr p k) s (.register p)) ∧
    decode [0x0C, p, k] = .instr (.shr p k) []

/-- JMP (44_control.md R120): any target, no exception, nothing but `PC`. -/
def Obligations.JmpSetsPc : Prop :=
  ∀ (h l : Byte) (s : State),
    (∃ t, exec (.jmp h l) s = .next t ∧ t.pc.toNat = h.toNat * 256 + l.toNat ∧ OnlyPc s t) ∧
    decode [0x0D, h, l] = .instr (.jmp h l) []

/-- JZ (44_control.md R121): not taken, nothing changes. -/
def Obligations.JzJumpsOnZero : Prop :=
  ∀ (h l : Byte) (s : State),
    (s.flagZ = true → ∃ t, exec (.jz h l) s = .next t ∧ t.pc.toNat = h.toNat * 256 + l.toNat ∧ OnlyPc s t) ∧
    (s.flagZ = false → exec (.jz h l) s = .next s) ∧
    decode [0x0E, h, l] = .instr (.jz h l) []

/-- JNZ (44_control.md R122): not taken, nothing changes. -/
def Obligations.JnzJumpsOnNonzero : Prop :=
  ∀ (h l : Byte) (s : State),
    (s.flagZ = false → ∃ t, exec (.jnz h l) s = .next t ∧ t.pc.toNat = h.toNat * 256 + l.toNat ∧ OnlyPc s t) ∧
    (s.flagZ = true → exec (.jnz h l) s = .next s) ∧
    decode [0x0F, h, l] = .instr (.jnz h l) []

/-- HALT (44_control.md R123): both operand bytes are ignored. -/
def Obligations.HaltSetsHalted : Prop :=
  ∀ (j k : Byte) (s : State),
    exec (.halt j k) s = .next { s with halted := true } ∧ decode [0x10, j, k] = .instr (.halt j k) []

/-- Decode and encode agree for every instruction under EVERY injective opcode map (30_encoding.md R52 advises to take the map
as a configuration whose only law is injectivity), whatever bytes follow. -/
def Obligations.DecodeOfEncode : Prop :=
  ∀ opc : OpcodeMap, (∀ m n, opc m = opc n → m = n) →
    ∀ (i : Instr) (rest : List Byte), decodeWith opc (encodeWith opc i ++ rest) = .instr i rest

/-- Every three bytes decode under the spec's opcode map (30_encoding.md R54, R58; decision D1): opcodes 0x00..0x10 to an
instruction with just that encoding, 0x11..0xFF to the unknown opcode; no operand byte matters to that. -/
def Obligations.EveryThreeBytesDecode : Prop :=
  ∀ (o a b : Byte) (rest : List Byte),
    (o.toNat ≤ 0x10 → ∃ i, decode (o :: a :: b :: rest) = .instr i rest ∧ encode i = [o, a, b]) ∧
    (0x10 < o.toNat → decode (o :: a :: b :: rest) = .unknownOpcode o a b rest)

/-- The whole opcode byte selects the instruction and nothing else does (30_encoding.md R51), for every injective map. -/
def Obligations.OpcodeByteAloneSelects : Prop :=
  ∀ opc : OpcodeMap, (∀ m n, opc m = opc n → m = n) →
    ∀ (m : Mnemonic) (o a b : Byte) (rest : List Byte),
      (∃ i, decodeWith opc (o :: a :: b :: rest) = .instr i rest ∧ i.mnemonic = m) ↔ opc m = o

/-- Words written out from the spec's examples (95_test_vectors.md E6, part 2, P6) decode to what they stand for. A sanity
statement; the opcode bytes are decision D1 (log entry 1). -/
def Obligations.SampleWordsDecode : Prop :=
  decode [0x00, 0x00, 0x0A] = .instr (.load 0 10) [] ∧ decode [0x01, 0x02, 0x14] = .instr (.store 2 20) [] ∧
  decode [0x03, 0x00, 0x01] = .instr (.add 0 1) [] ∧ decode [0x06, 0x02, 0x00] = .instr (.dec 2 0) [] ∧
  decode [0x0B, 0x02, 0x00] = .instr (.shl 2 0) [] ∧ decode [0x0F, 0x00, 0x09] = .instr (.jnz 0 9) [] ∧
  decode [0x10, 0x2A, 0x08] = .instr (.halt 42 8) [] ∧
  decode [0xFF, 0xEE, 0xDD] = .unknownOpcode 0xFF 0xEE 0xDD [] ∧ decode [0x10, 0x00] = .incomplete [0x10, 0x00]

/-- `ExecuteOne` (40_execute_dispatch.md R70, R72): `IR` first, then the table's instruction; an opcode outside the table sets
`halted` and changes nothing else. For every injective opcode map. -/
def Obligations.ExecuteOneRecordsThenDispatches : Prop :=
  ∀ opc : OpcodeMap, (∀ m n, opc m = opc n → m = n) →
    ∀ (o a b : Byte) (s : State),
      let ir : Word := BitVec.ofNat 16 (o.toNat * 256 + a.toNat)
      (∀ i : Instr, encodeWith opc i = [o, a, b] → executeOneWith opc o a b s = exec i { s with ir := ir }) ∧
      ((∀ m, opc m ≠ o) → executeOneWith opc o a b s = .next { s with ir := ir, halted := true })

/-- `ExecuteOne` runs exactly one instruction regardless of `halted`, sets it only through HALT or an unknown opcode, and
moves `PC` only through a JMP, a taken JZ or a taken JNZ (40_execute_dispatch.md R71). -/
def Obligations.ExecuteOneIgnoresHalted : Prop :=
  ∀ (opc : OpcodeMap) (o a b : Byte) (s : State),
    ∃ t, executeOneWith opc o a b s = .next t ∧
      (∀ h : Bool, ∃ k : Bool, executeOneWith opc o a b { s with halted := h } = .next { t with halted := k } ∧
        (k = true ↔ h = true ∨ lookupOpcode opc o = none ∨ lookupOpcode opc o = some .HALT)) ∧
      (t.pc ≠ s.pc → lookupOpcode opc o = some .JMP ∨ (lookupOpcode opc o = some .JZ ∧ s.flagZ = true) ∨
        (lookupOpcode opc o = some .JNZ ∧ s.flagZ = false))

/-- A step runs the decoded instruction: when the three bytes at `PC` of a running engine decode to `i`, the step is `exec` of
`i` on the state with `PC` moved past the three bytes and `IR` = opcode : op1. -/
def Obligations.StepRunsDecodedInstruction : Prop :=
  ∀ (s : State) (o a b : Byte) (i : Instr), s.Running →
    s.mem? s.pc.toNat = some o → s.mem? (s.pc.toNat + 1) = some a → s.mem? (s.pc.toNat + 2) = some b →
    decode [o, a, b] = .instr i [] →
    step s = exec i { s with pc := BitVec.ofNat 16 (s.pc.toNat + 3), ir := BitVec.ofNat 16 (o.toNat * 256 + a.toNat) }

/-- The same of the run loop under every injective opcode map: claims about mnemonics do not rest on decision D1. -/
def Obligations.RunLoopRunsEveryOpcodeMap : Prop :=
  ∀ opc : OpcodeMap, (∀ m n, opc m = opc n → m = n) → ∀ (s : State) (i : Instr), s.Running →
    (∀ k b, (encodeWith opc i)[k]? = some b → s.mem? (s.pc.toNat + k) = some b) →
    runLoopStep opc s = exec i { s with
      pc := BitVec.ofNat 16 (s.pc.toNat + 3), ir := BitVec.ofNat 16 ((opc i.mnemonic).toNat * 256 + i.op1.toNat) }

/-- A full fetch (45_run_loop.md R134): the three bytes at `PC`, then `ExecuteOne` on the state with `PC` = p + 3 and all else
as before; a JMP and a taken JZ or JNZ overwrite that `PC`, everything else leaves it, a faulting instruction too. -/
def Obligations.FullFetchThenExecutes : Prop :=
  ∀ (s : State) (o a b : Byte), s.Running →
    s.mem? s.pc.toNat = some o → s.mem? (s.pc.toNat + 1) = some a → s.mem? (s.pc.toNat + 2) = some b →
    step s = executeOne o a b { s with pc := BitVec.ofNat 16 (s.pc.toNat + 3) } ∧
    ∃ t, step s = .next t ∧
      t.pc.toNat =
        match decode [o, a, b] with
        | .instr (.jmp h l) _ => h.toNat * 256 + l.toNat
        | .instr (.jz h l) _ => if s.flagZ then h.toNat * 256 + l.toNat else s.pc.toNat + 3
        | .instr (.jnz h l) _ => if s.flagZ then s.pc.toNat + 3 else h.toNat * 256 + l.toNat
        | _ => s.pc.toNat + 3

/-- With no byte at `PC` the step halts and changes nothing else (45_run_loop.md R132); that `PC` stays is the spec's
decision D7 (log entry 7). -/
def Obligations.FetchPastEndHalts : Prop :=
  ∀ s : State, s.Running → s.M ≤ s.pc.toNat → step s = .next { s with halted := true }

/-- A partial fetch halts with `PC` = p + 1 and `IR` untouched, whatever the opcode byte is (45_run_loop.md R133); that the
opcode byte has no effect is the spec's decision D20 (log entry 7). -/
def Obligations.PartialFetchHalts : Prop :=
  ∀ s : State, s.Running → s.pc.toNat < s.M → s.M ≤ s.pc.toNat + 2 →
    step s = .next { s with halted := true, pc := BitVec.ofNat 16 (s.pc.toNat + 1) }

/-- `Halted` is reached on exactly three events (45_run_loop.md R135): a fetched HALT, a fetched unknown opcode, memory too
short for a full fetch. A running engine always has a next state, and what each event leaves is the rule's table (its
rows c1 and c2 repeat what R133 and R132 decide, D20 and D7, log entry 7). -/
def Obligations.HaltsOnExactlyThreeEvents : Prop :=
  ∀ s : State, s.Running →
    let p := s.pc.toNat
    ∃ t, step s = .next t ∧
      (t.halted = true ↔
        (∃ o a b j k, s.mem? p = some o ∧ s.mem? (p + 1) = some a ∧ s.mem? (p + 2) = some b ∧
          decode [o, a, b] = .instr (.halt j k) []) ∨
        (∃ o a b, s.mem? p = some o ∧ s.mem? (p + 1) = some a ∧ s.mem? (p + 2) = some b ∧
          decode [o, a, b] = .unknownOpcode o a b []) ∨
        s.M ≤ p + 2) ∧
      (t.halted = true → ∀ o a b, s.mem? p = some o → s.mem? (p + 1) = some a → s.mem? (p + 2) = some b →
        t = { s with halted := true, pc := BitVec.ofNat 16 (p + 3), ir := BitVec.ofNat 16 (o.toNat * 256 + a.toNat) }) ∧
      (p < s.M → s.M ≤ p + 2 → t = { s with halted := true, pc := BitVec.ofNat 16 (p + 1) }) ∧
      (s.M ≤ p → t = { s with halted := true })

/-- A stopped engine performs no iteration (45_run_loop.md R130). That the model's step then answers the same state when
final, and the fault when faulted, is the model's choice (log entries 16, 17). -/
def Obligations.StoppedEngineMakesNoIteration : Prop :=
  ∀ s : State,
    (s.Final → step s = .next s) ∧
    (∀ i, s.fault = .register i → step s = .fault (.outOfBoundsRegister i)) ∧
    (∀ a, s.fault = .memory a → step s = .fault (.outOfBoundsMemory a)) ∧
    (¬ s.Running → ∀ t, RunEnds s t ↔ t = s)

/-- A run ends only in a final or a faulted state, never in both (45_run_loop.md R137), and in one state only. -/
def Obligations.RunEndsInOneStoppedState : Prop :=
  ∀ s t : State, RunEnds s t →
    ((t.Final ∧ ¬ t.Faulted) ∨ (t.Faulted ∧ ¬ t.Final)) ∧ ∀ u, RunEnds s u → u = t

/-- `JMP p` at address `p` is an endless loop (44_control.md R120, 45_run_loop.md R136): the machine stays in one running
state from the first step on, and the run ends nowhere. -/
def Obligations.JmpToItselfNeverEnds : Prop :=
  ∀ (s : State) (o h l : Byte), s.Running →
    s.mem? s.pc.toNat = some o → s.mem? (s.pc.toNat + 1) = some h → s.mem? (s.pc.toNat + 2) = some l →
    decode [o, h, l] = .instr (.jmp h l) [] → h.toNat * 256 + l.toNat = s.pc.toNat →
    (∃ t, step s = .next t ∧ t.Running ∧ step t = .next t) ∧ ∀ u, ¬ RunEnds s u

/-- Only reset clears `halted` or `fault` or sets `N` and `M` (70_reset_and_hazards.md R181): no instruction, no step and no
other host operation, `Run` included, does. -/
def Obligations.OnlyResetClearsHaltedAndFault : Prop :=
  (∀ (i : Instr) (s : State), ∃ t, exec i s = .next t ∧ (s.halted = true → t.halted = true) ∧
    (s.fault ≠ .none → t.fault = s.fault) ∧ t.N = s.N ∧ t.M = s.M) ∧
  (∀ s t : State, step s = .next t →
    (s.halted = true → t.halted = true) ∧ (s.fault ≠ .none → t.fault = s.fault) ∧ t.N = s.N ∧ t.M = s.M) ∧
  (∀ (op : HostOp) (s t : State) (r : HostReply), hostDo op s = .next (t, r) → (∀ p, op ≠ .reset p) →
    (s.halted = true → t.halted = true) ∧ (s.fault ≠ .none → t.fault = s.fault) ∧ t.N = s.N ∧ t.M = s.M) ∧
  (∀ (s t : State) (r : HostReply), HostAnswers .run s t r →
    (s.halted = true → t.halted = true) ∧ (s.fault ≠ .none → t.fault = s.fault) ∧ t.N = s.N ∧ t.M = s.M) ∧
  (∀ (p : Params) (s : State), ∃ t, hostDo (.reset p) s = .next (t, .done) ∧ t.Running ∧
    t.N = p.regCount.toNat ∧ t.M = p.memSize.toNat)

/-- Halting and faulting never happen in the same step (60_exceptions.md section 3), and a running engine always steps. -/
def Obligations.HaltAndFaultNeverTogether : Prop :=
  ∀ s : State, s.Running → ∃ t, step s = .next t ∧ (t.Running ∨ t.Final ∨ (t.Faulted ∧ t.halted = false))

/-- `OutOfBounds` is raised exactly by an instruction with a register operand `>= N` or a LOAD or STORE address `>= M`
(60_exceptions.md R151): never by JMP, JZ, JNZ, HALT, an unknown opcode or a fetch. -/
def Obligations.OutOfBoundsExactlyOnBadOperands : Prop :=
  (∀ (i : Instr) (s : State), s.fault = .none →
    ∃ t, exec i s = .next t ∧ (t.fault ≠ .none ↔ i.wellFormed s.N s.M = false)) ∧
  (∀ (h l : Byte) (N M : Nat), Instr.wellFormed N M (.jmp h l) = true ∧ Instr.wellFormed N M (.jz h l) = true ∧
    Instr.wellFormed N M (.jnz h l) = true ∧ Instr.wellFormed N M (.halt h l) = true) ∧
  (∀ (opc : OpcodeMap) (o a b : Byte) (s : State), (∀ m, opc m ≠ o) →
    ∃ t, executeOneWith opc o a b s = .next t ∧ t.fault = s.fault) ∧
  (∀ s : State, s.Running → s.M ≤ s.pc.toNat + 2 → ∃ t, step s = .next t ∧ t.fault = .none)

/-- The fault is precise (60_exceptions.md section 2): nothing but the latch changes, a latched fault is never overwritten,
and the cause and index are those of the first failing operand. The latch, its codes and the order of the operands are the
spec's decisions D8 and D9 (log entry 3). -/
def Obligations.FaultEntryIsPrecise : Prop :=
  ∀ (i : Instr) (s : State), i.wellFormed s.N s.M = false →
    (s.fault = .none → ∃ f, exec i s = .next { s with fault := f } ∧
      ((s.N ≤ i.op1.toNat ∧ f.cause = 1 ∧ f.index = i.op1) ∨
       (i.op1.toNat < s.N ∧ f.index = i.op2 ∧
         if i.mnemonic = .LOAD ∨ i.mnemonic = .STORE then s.M ≤ i.op2.toNat ∧ f.cause = 2
         else s.N ≤ i.op2.toNat ∧ f.cause = 1))) ∧
    (s.fault ≠ .none → exec i s = .next s)

/-- The uniform flag derivation (40_execute_dispatch.md R74, R75): after every flag-producing instruction Z and N come from
the value of the destination register and C and O from the table's conditions; Z and N are never both set. Every other
instruction, and an unknown opcode, leaves `SR`. -/
def Obligations.FlagsFollowTheTable : Prop :=
  (∀ (i : Instr) (s : State) (d : Byte), i.dest? = some d → i.wellFormed s.N s.M = true →
    ∃ t r, exec i s = .next t ∧ t.reg? d.toNat = some r ∧
      t.flagZ = decide (r.toNat = 0) ∧ t.flagN = r.getLsbD 7 ∧ ¬ (t.flagZ = true ∧ t.flagN = true) ∧
      t.flagC = i.carryCondition (s.reg i.op1) (s.reg i.op2) ∧
      t.flagO = i.overflowCondition (s.reg i.op1) (s.reg i.op2) r) ∧
  (∀ (i : Instr) (s : State), i.dest? = none → ∃ t, exec i s = .next t ∧ t.sr = s.sr) ∧
  (∀ (opc : OpcodeMap) (o a b : Byte) (s : State), (∀ m, opc m ≠ o) →
    ∃ t, executeOneWith opc o a b s = .next t ∧ t.sr = s.sr)

/-- `SR` is fully recomputed by every flag-producing instruction and untouched by the others; JZ and JNZ read bit Z, and no
instruction reads N, C or O (10_state.md R17). -/
def Obligations.StatusFullyRecomputed : Prop :=
  (∀ (i : Instr) (s : State) (v : Nibble), i.dest? ≠ none → i.wellFormed s.N s.M = true →
    ∃ t, exec i s = .next t ∧ exec i { s with sr := v } = .next t) ∧
  (∀ (i : Instr) (s : State), i.dest? = none → ∃ t, exec i s = .next t ∧ t.sr = s.sr) ∧
  (∀ (opc : OpcodeMap) (o a b : Byte) (s : State), (∀ m, opc m ≠ o) →
    ∃ t, executeOneWith opc o a b s = .next t ∧ t.sr = s.sr) ∧
  (∀ (i : Instr) (s : State) (v : Nibble), i.dest? = none → v.getLsbD 0 = s.flagZ →
    ∃ t, exec i s = .next t ∧ exec i { s with sr := v } = .next { t with sr := v })

/-- LOAD alone reads data memory and STORE alone writes it (20_memory.md R44): every other instruction does the same whatever
memory holds and leaves it; LOAD leaves it; what STORE does to everything else, and the byte it stores, do not depend on it. -/
def Obligations.OnlyLoadReadsOnlyStoreWrites : Prop :=
  (∀ (i : Instr) (s : State) (m : Memory), i.mnemonic ≠ .LOAD → i.mnemonic ≠ .STORE →
    ∃ t, exec i s = .next t ∧ exec i { s with mem := m } = .next { t with mem := m }) ∧
  (∀ (d a : Byte) (s : State), ∃ t, exec (.load d a) s = .next t ∧ t.mem = s.mem) ∧
  (∀ (r a : Byte) (s : State) (m : Memory), ∃ t u, exec (.store r a) s = .next t ∧
    exec (.store r a) { s with mem := m } = .next { t with mem := u } ∧
    (r.toNat < s.N → a.toNat < s.M → Memory.read u a.toNat = Memory.read t.mem a.toNat))

/-- `IR` and `SP` are read by no instruction, and `SP` is written by none (10_state.md sections 5 and 7): a step does the same
to everything else whatever they hold, and leaves `SP`. -/
def Obligations.IrAndSpAreNeverRead : Prop :=
  (∀ (i : Instr) (s : State) (v : Word) (w : Byte),
    ∃ t, exec i s = .next t ∧ t.sp = s.sp ∧ t.ir = s.ir ∧
      exec i { s with ir := v, sp := w } = .next { t with ir := v, sp := w }) ∧
  (∀ (s : State) (v : Word) (w : Byte), s.Running → ∃ t u, step s = .next t ∧ t.sp = s.sp ∧
    step { s with ir := v, sp := w } = .next { t with ir := u, sp := w })

/-- JMP, JZ, JNZ are the only control transfers, and the target is always the 16-bit absolute value of their operand bytes
(44_control.md R124). -/
def Obligations.OnlyJumpsWritePc : Prop :=
  ∀ (i : Instr) (s : State), ∃ t, exec i s = .next t ∧
    (t.pc = s.pc ∨ ∃ h l : Byte, t.pc.toNat = h.toNat * 256 + l.toNat ∧
      (i = .jmp h l ∨ (i = .jz h l ∧ s.flagZ = true) ∨ (i = .jnz h l ∧ s.flagZ = false)))

/-- Naming one register twice uses its old value twice (40_execute_dispatch.md R77). -/
def Obligations.SameRegisterUsesOldValues : Prop :=
  ∀ (p : Byte) (s : State) (x : Byte), s.reg? p.toNat = some x →
    (∃ t, exec (.add p p) s = .next t ∧ t.reg? p.toNat = some (BitVec.ofNat 8 (2 * x.toNat % 256))) ∧
    (∀ i ∈ [Instr.sub p p, Instr.xor p p], ∃ t, exec i s = .next t ∧ t.reg? p.toNat = some 0 ∧
      t.flagZ = true ∧ t.flagC = false ∧ t.flagO = false) ∧
    (∀ i ∈ [Instr.and p p, Instr.or p p, Instr.move p p], ∃ t, exec i s = .next t ∧ ResultIn s t p.toNat x false false)

/-- O is signed overflow, C after SUB is a borrow, and INC and DEC are ADD and SUB with 1 (the laws under
40_execute_dispatch.md section 4, which the spec marks as derived). -/
def Obligations.OverflowIsSignedRange : Prop :=
  ∀ (p q k : Byte) (s : State) (x y : Byte), s.reg? p.toNat = some x → s.reg? q.toNat = some y →
    (∃ t, exec (.add p q) s = .next t ∧
      (t.flagO = true ↔ x.toInt + y.toInt < -128 ∨ 127 < x.toInt + y.toInt)) ∧
    (∃ t, exec (.sub p q) s = .next t ∧ (t.flagC = true ↔ x.toNat < y.toNat) ∧
      (t.flagO = true ↔ x.toInt - y.toInt < -128 ∨ 127 < x.toInt - y.toInt)) ∧
    (y = 1 → ∃ t, exec (.inc p k) s = .next t ∧ exec (.add p q) s = .next t) ∧
    (y = 1 → ∃ t, exec (.dec p k) s = .next t ∧ exec (.sub p q) s = .next t)

/-- A STORE is seen by every later fetch (20_memory.md R43, derived there): the fetch after it finds the stored byte at the
stored address and the old bytes elsewhere. -/
def Obligations.StoreIsSeenByFetch : Prop :=
  ∀ (r a v : Byte) (s : State), s.reg? r.toNat = some v → a.toNat < s.M →
    ∃ t, exec (.store r a) s = .next t ∧
      ∀ p : Word, p.toNat + 2 < s.M →
        let byteAt (b : Nat) : Byte := if b = a.toNat then v else s.readMem b
        fetch { t with pc := p } = .full (byteAt p.toNat) (byteAt (p.toNat + 1)) (byteAt (p.toNat + 2))

/-- `PC` never wraps (10_state.md R14, derived there): a step leaves it, or moves it on without passing `M`, or loads the
target that a jump's operand bytes in memory spell. -/
def Obligations.PcNeverWraps : Prop :=
  ∀ s : State, s.Running → ∃ t, step s = .next t ∧
    (t.pc = s.pc ∨
     (t.pc.toNat = s.pc.toNat + 1 ∧ s.pc.toNat < s.M) ∨
     (t.pc.toNat = s.pc.toNat + 3 ∧ t.pc.toNat ≤ s.M) ∨
     ∃ h l, s.mem? (s.pc.toNat + 1) = some h ∧ s.mem? (s.pc.toNat + 2) = some l ∧
       t.pc.toNat = h.toNat * 256 + l.toNat)

/-- `Load` copies the program to `[0, L)` and alters nothing else (70_reset_and_hazards.md R182); `L` = 0 is a no-op. -/
def Obligations.LoadCopiesProgram : Prop :=
  ∀ (bytes : List Byte) (s : State), s.fault = .none → bytes.length ≤ s.M →
    ∃ m : Memory, hostDo (.load bytes) s = .next ({ s with mem := m }, .done) ∧
      (∀ a, a < bytes.length → State.mem? { s with mem := m } a = bytes[a]?) ∧
      (∀ a, bytes.length ≤ a → State.mem? { s with mem := m } a = s.mem? a) ∧
      (bytes = [] → m = s.mem)

/-- `Load` of a program longer than memory is refused and writes nothing: the spec's decision D11 (log entry 9). -/
def Obligations.TooLongLoadIsRefused : Prop :=
  ∀ (bytes : List Byte) (s : State), s.fault = .none → s.M < bytes.length →
    hostDo (.load bytes) s = .next (s, .capacityExceeded)

/-- A host `ExecuteOne` performs the instruction and reports the `OutOfBounds` it latched, if any; it and `Load` are refused
while a fault is latched (decision D16, log entry 11), and reads go on being answered. -/
def Obligations.HostExecuteOneReports : Prop :=
  ∀ (o a b : Byte) (s : State),
    (s.fault = .none → ∃ t, executeOne o a b s = .next t ∧
      hostDo (.executeOne o a b) s = .next (t, if t.fault = .none then .done else .raised t.fault)) ∧
    (s.fault ≠ .none → hostDo (.executeOne o a b) s = .refused .hostCallAfterFault ∧
      (∀ bytes, hostDo (.load bytes) s = .refused .hostCallAfterFault) ∧
      hostDo .readFault s = .next (s, .latch s.fault))

/-- What `Run()` gives back: "nothing, or the `OutOfBounds` it latched" (70_reset_and_hazards.md section 3): nothing where the
run ends final, the fault where it ends faulted, and no answer where it never ends. A run takes its first step and goes on
as the run from there, so a step that faults ends it with that fault. That a run of an engine already faulted may give
back either reply is the model's choice (log entry 22). -/
def Obligations.RunReportsWhatItLatched : Prop :=
  ∀ s : State,
    (s.fault = .none → ∀ t r, HostAnswers .run s t r ↔
      RunEnds s t ∧ ((t.Final ∧ r = .done) ∨ (t.Faulted ∧ r = .raised t.fault))) ∧
    (s.Final → ∀ t r, HostAnswers .run s t r ↔ t = s ∧ r = .done) ∧
    (s.Faulted → ∀ t r, HostAnswers .run s t r ↔ t = s ∧ (r = .done ∨ r = .raised s.fault)) ∧
    (s.Running → ∃ t, step s = .next t ∧
      (t.Faulted → ∀ u r, HostAnswers .run s u r ↔ u = t ∧ r = .raised t.fault) ∧
      (t.fault = .none → ∀ u r, HostAnswers .run s u r ↔ HostAnswers .run t u r))

/-- The register and memory accessors (70_reset_and_hazards.md section 3): a write is read back, leaves every other element,
and an index out of range is refused with nothing changed (decisions D12, D13; log entry 10). -/
def Obligations.AccessorsReadBackWrites : Prop :=
  ∀ (i : Nat) (v : Byte) (s : State),
    (i < s.N → ∃ t, hostDo (.writeReg i v) s = .next (t, .done) ∧ t.reg? i = some v ∧
      (∀ j, j ≠ i → t.reg? j = s.reg? j) ∧ hostDo (.readReg i) t = .next (t, .byte v) ∧ { t with regs := s.regs } = s) ∧
    (i < s.M → ∃ t, hostDo (.writeMem i v) s = .next (t, .done) ∧ t.mem? i = some v ∧
      (∀ j, j ≠ i → t.mem? j = s.mem? j) ∧ hostDo (.readMem i) t = .next (t, .byte v) ∧ { t with mem := s.mem } = s) ∧
    (s.N ≤ i → hostDo (.writeReg i v) s = .next (s, .indexOutOfBounds) ∧
      hostDo (.readReg i) s = .next (s, .indexOutOfBounds)) ∧
    (s.M ≤ i → hostDo (.writeMem i v) s = .next (s, .indexOutOfBounds) ∧
      hostDo (.readMem i) s = .next (s, .indexOutOfBounds))

/-- The accessors of `PC`, `IR`, `SR`, `SP`, and the reads of `halted` and `fault` (70_reset_and_hazards.md section 3): a write
stores its value and has no side effect, a read answers the element and changes nothing, in every state. That `halted` and
`fault` are read-only is the spec's decision D14 (log entry 10). -/
def Obligations.SpecialAccessorsHaveNoSideEffect : Prop :=
  ∀ (s : State) (v : Word) (n : Nibble) (b : Byte),
    hostDo (.writePc v) s = .next ({ s with pc := v }, .done) ∧ hostDo .readPc s = .next (s, .word s.pc) ∧
    hostDo (.writeIr v) s = .next ({ s with ir := v }, .done) ∧ hostDo .readIr s = .next (s, .word s.ir) ∧
    hostDo (.writeSr n) s = .next ({ s with sr := n }, .done) ∧ hostDo .readSr s = .next (s, .status s.sr) ∧
    hostDo (.writeSp b) s = .next ({ s with sp := b }, .done) ∧ hostDo .readSp s = .next (s, .byte s.sp) ∧
    hostDo .readHalted s = .next (s, .bit s.halted) ∧ hostDo .readFault s = .next (s, .latch s.fault)

/-- Every step keeps the invariant: at most 255 registers, memory in canonical form, no cell at or above `M`. -/
def Obligations.StepKeepsInvariant : Prop :=
  ∀ s t : State, s.Inv → step s = .next t → t.Inv

/-- Every host operation keeps the invariant, `Run` included; reset makes it true. -/
def Obligations.HostKeepsInvariant : Prop :=
  ∀ (c : HostCall) (s t : State) (r : HostReply), s.Inv → HostAnswers c s t r → t.Inv

/-- Reset satisfies the invariant, for all parameters and so for `State.reset`. -/
def Obligations.ResetSatisfiesInvariant : Prop :=
  State.reset.Inv ∧ ∀ p : Params, (State.resetWith p).Inv

/-- What reset leaves (10_state.md section 11), for all parameters: every register and every cell that exists holds 0, `PC`,
`SR` and `halted` are 0, `SP` is `M - 1`. `IR` = 0 is the spec's decision D5, `SP` = 0xFF for `M` = 0 decision D4, the empty
latch decision D8 (log entries 4, 5, 3). -/
def Obligations.ResetLeavesZeros : Prop :=
  ∀ p : Params,
    let s := State.resetWith p
    s.N = p.regCount.toNat ∧ s.M = p.memSize.toNat ∧
    (∀ i, i < p.regCount.toNat → s.reg? i = some 0) ∧ (∀ a, a < p.memSize.toNat → s.mem? a = some 0) ∧
    s.pc = 0 ∧ s.sr = 0 ∧ s.halted = false ∧ s.ir = 0 ∧ s.fault = .none ∧
    (1 ≤ p.memSize.toNat → s.sp.toNat = p.memSize.toNat - 1) ∧ (p.memSize.toNat = 0 → s.sp.toNat = 0xFF)
end

