-- ==== Sys2Proof/Laws/Decode.lean ====
section
/-! SUPPORT. Looking an opcode up. -/

namespace Sys2Proof

theorem mem_allMnemonics (m : Mnemonic) : m ∈ allMnemonics := by cases m <;> decide

/-- The spec's opcode map is injective, the only law 30_encoding.md R52 asks of it. -/
theorem opcodeTable_injective : ∀ m n, opcodeTable m = opcodeTable n → m = n := by
  intro m n h
  cases m <;> cases n <;> first | rfl | exact absurd h (by decide)

/-- A lookup answers only a row with that opcode. -/
theorem lookupOpcode_some {opc : OpcodeMap} {o : Byte} {m : Mnemonic} (h : lookupOpcode opc o = some m) : opc m = o := by
  simpa using List.find?_some h

/-- Under an injective map, looking an opcode up finds its row. -/
theorem lookupOpcode_eq {opc : OpcodeMap} (inj : ∀ m n, opc m = opc n → m = n) (m : Mnemonic) :
    lookupOpcode opc (opc m) = some m := by
  cases h : lookupOpcode opc (opc m) with
  | none => simpa using List.find?_eq_none.mp h m (mem_allMnemonics m)
  | some n => rw [inj n m (lookupOpcode_some h)]

/-- A lookup fails exactly for an opcode of no row. -/
theorem lookupOpcode_none {opc : OpcodeMap} {o : Byte} : lookupOpcode opc o = none ↔ ∀ m, opc m ≠ o := by
  refine ⟨fun h m => by simpa using List.find?_eq_none.mp h m (mem_allMnemonics m), fun h => ?_⟩
  exact List.find?_eq_none.mpr (fun m _ => by simpa using h m)

end Sys2Proof
end

