-- ==== Sys2Proof/Laws/State.lean ====
section
/-! SUPPORT. The state's small lemmas: each field, and `N` and `M`, after each update. -/

namespace Sys2Proof.Machine

variable (s : State)

@[simp] theorem State.setReg_regs (i v : Byte) : (s.setReg i v).regs = s.regs.set i.toNat v := rfl
@[simp] theorem State.setReg_memSize (i v : Byte) : (s.setReg i v).memSize = s.memSize := rfl
@[simp] theorem State.setReg_mem (i v : Byte) : (s.setReg i v).mem = s.mem := rfl
@[simp] theorem State.setReg_pc (i v : Byte) : (s.setReg i v).pc = s.pc := rfl
@[simp] theorem State.setReg_ir (i v : Byte) : (s.setReg i v).ir = s.ir := rfl
@[simp] theorem State.setReg_sr (i v : Byte) : (s.setReg i v).sr = s.sr := rfl
@[simp] theorem State.setReg_sp (i v : Byte) : (s.setReg i v).sp = s.sp := rfl
@[simp] theorem State.setReg_halted (i v : Byte) : (s.setReg i v).halted = s.halted := rfl
@[simp] theorem State.setReg_fault (i v : Byte) : (s.setReg i v).fault = s.fault := rfl
@[simp] theorem State.setReg_N (i v : Byte) : (s.setReg i v).N = s.N := by simp [State.N]
@[simp] theorem State.setReg_M (i v : Byte) : (s.setReg i v).M = s.M := rfl

@[simp] theorem State.writeMem_regs (a : Nat) (v : Byte) : (s.writeMem a v).regs = s.regs := rfl
@[simp] theorem State.writeMem_memSize (a : Nat) (v : Byte) : (s.writeMem a v).memSize = s.memSize := rfl
@[simp] theorem State.writeMem_mem (a : Nat) (v : Byte) : (s.writeMem a v).mem = Memory.write s.mem a v := rfl
@[simp] theorem State.writeMem_pc (a : Nat) (v : Byte) : (s.writeMem a v).pc = s.pc := rfl
@[simp] theorem State.writeMem_ir (a : Nat) (v : Byte) : (s.writeMem a v).ir = s.ir := rfl
@[simp] theorem State.writeMem_sr (a : Nat) (v : Byte) : (s.writeMem a v).sr = s.sr := rfl
@[simp] theorem State.writeMem_sp (a : Nat) (v : Byte) : (s.writeMem a v).sp = s.sp := rfl
@[simp] theorem State.writeMem_halted (a : Nat) (v : Byte) : (s.writeMem a v).halted = s.halted := rfl
@[simp] theorem State.writeMem_fault (a : Nat) (v : Byte) : (s.writeMem a v).fault = s.fault := rfl
@[simp] theorem State.writeMem_N (a : Nat) (v : Byte) : (s.writeMem a v).N = s.N := rfl
@[simp] theorem State.writeMem_M (a : Nat) (v : Byte) : (s.writeMem a v).M = s.M := rfl

@[simp] theorem State.setPc_regs (v : Word) : (s.setPc v).regs = s.regs := rfl
@[simp] theorem State.setPc_memSize (v : Word) : (s.setPc v).memSize = s.memSize := rfl
@[simp] theorem State.setPc_mem (v : Word) : (s.setPc v).mem = s.mem := rfl
@[simp] theorem State.setPc_pc (v : Word) : (s.setPc v).pc = v := rfl
@[simp] theorem State.setPc_ir (v : Word) : (s.setPc v).ir = s.ir := rfl
@[simp] theorem State.setPc_sr (v : Word) : (s.setPc v).sr = s.sr := rfl
@[simp] theorem State.setPc_sp (v : Word) : (s.setPc v).sp = s.sp := rfl
@[simp] theorem State.setPc_halted (v : Word) : (s.setPc v).halted = s.halted := rfl
@[simp] theorem State.setPc_fault (v : Word) : (s.setPc v).fault = s.fault := rfl
@[simp] theorem State.setPc_N (v : Word) : (s.setPc v).N = s.N := rfl
@[simp] theorem State.setPc_M (v : Word) : (s.setPc v).M = s.M := rfl

@[simp] theorem State.recordIr_regs (o a : Byte) : (s.recordIr o a).regs = s.regs := rfl
@[simp] theorem State.recordIr_memSize (o a : Byte) : (s.recordIr o a).memSize = s.memSize := rfl
@[simp] theorem State.recordIr_mem (o a : Byte) : (s.recordIr o a).mem = s.mem := rfl
@[simp] theorem State.recordIr_pc (o a : Byte) : (s.recordIr o a).pc = s.pc := rfl
@[simp] theorem State.recordIr_ir (o a : Byte) : (s.recordIr o a).ir = o ++ a := rfl
@[simp] theorem State.recordIr_sr (o a : Byte) : (s.recordIr o a).sr = s.sr := rfl
@[simp] theorem State.recordIr_sp (o a : Byte) : (s.recordIr o a).sp = s.sp := rfl
@[simp] theorem State.recordIr_halted (o a : Byte) : (s.recordIr o a).halted = s.halted := rfl
@[simp] theorem State.recordIr_fault (o a : Byte) : (s.recordIr o a).fault = s.fault := rfl
@[simp] theorem State.recordIr_N (o a : Byte) : (s.recordIr o a).N = s.N := rfl
@[simp] theorem State.recordIr_M (o a : Byte) : (s.recordIr o a).M = s.M := rfl

@[simp] theorem State.setSr_regs (v : Nibble) : (s.setSr v).regs = s.regs := rfl
@[simp] theorem State.setSr_memSize (v : Nibble) : (s.setSr v).memSize = s.memSize := rfl
@[simp] theorem State.setSr_mem (v : Nibble) : (s.setSr v).mem = s.mem := rfl
@[simp] theorem State.setSr_pc (v : Nibble) : (s.setSr v).pc = s.pc := rfl
@[simp] theorem State.setSr_ir (v : Nibble) : (s.setSr v).ir = s.ir := rfl
@[simp] theorem State.setSr_sr (v : Nibble) : (s.setSr v).sr = v := rfl
@[simp] theorem State.setSr_sp (v : Nibble) : (s.setSr v).sp = s.sp := rfl
@[simp] theorem State.setSr_halted (v : Nibble) : (s.setSr v).halted = s.halted := rfl
@[simp] theorem State.setSr_fault (v : Nibble) : (s.setSr v).fault = s.fault := rfl
@[simp] theorem State.setSr_N (v : Nibble) : (s.setSr v).N = s.N := rfl
@[simp] theorem State.setSr_M (v : Nibble) : (s.setSr v).M = s.M := rfl

@[simp] theorem State.halt_regs : (s.halt).regs = s.regs := rfl
@[simp] theorem State.halt_memSize : (s.halt).memSize = s.memSize := rfl
@[simp] theorem State.halt_mem : (s.halt).mem = s.mem := rfl
@[simp] theorem State.halt_pc : (s.halt).pc = s.pc := rfl
@[simp] theorem State.halt_ir : (s.halt).ir = s.ir := rfl
@[simp] theorem State.halt_sr : (s.halt).sr = s.sr := rfl
@[simp] theorem State.halt_sp : (s.halt).sp = s.sp := rfl
@[simp] theorem State.halt_halted : (s.halt).halted = true := rfl
@[simp] theorem State.halt_fault : (s.halt).fault = s.fault := rfl
@[simp] theorem State.halt_N : (s.halt).N = s.N := rfl
@[simp] theorem State.halt_M : (s.halt).M = s.M := rfl

/-- Writing a register and reading it back, where it exists. -/
theorem State.setReg_reg?_self (i v : Byte) (h : i.toNat < s.N) : (s.setReg i v).reg? i.toNat = some v := by
  have h' : i.toNat < s.regs.length := h
  simp [State.reg?, h']

/-- Writing a register leaves the others. -/
theorem State.setReg_reg?_other (i v : Byte) {j : Nat} (h : j ≠ i.toNat) : (s.setReg i v).reg? j = s.reg? j := by
  simp [State.reg?, Ne.symm h]

/-- A register that exists holds `s.reg`. -/
theorem State.reg?_eq_reg {i : Byte} (h : i.toNat < s.N) : s.reg? i.toNat = some (s.reg i) := by
  have h' : i.toNat < s.regs.length := h
  simp [State.reg, State.reg?, h']

/-- Reading a register that is known to hold `v`. -/
theorem State.reg_of_reg? {i v : Byte} (h : s.reg? i.toNat = some v) : s.reg i = v := by simp [State.reg, h]

/-- A register holds a value exactly when its index is below `N`. -/
theorem State.lt_N_of_reg? {i : Nat} {v : Byte} (h : s.reg? i = some v) : i < s.N := by
  simpa [State.N] using (List.getElem?_eq_some_iff.mp h).1

/-- A cell holds a value exactly when its address is below `M`, and then it is what `readMem` gives. -/
theorem State.mem?_eq_some_iff {a : Nat} {v : Byte} : s.mem? a = some v ↔ a < s.M ∧ s.readMem a = v := by
  simp [State.mem?, State.readMem]

end Sys2Proof.Machine
end

