-- ==== Sys2Proof/Laws/Flags.lean ====
section
/-! SUPPORT. The status register's layout, the flag derivation and writing a result. -/

namespace Sys2Proof.Machine

@[simp] theorem packSr_zero (z n c o : Bool) : (packSr z n c o)[0] = z := by
  cases z <;> cases n <;> cases c <;> cases o <;> rfl

@[simp] theorem packSr_negative (z n c o : Bool) : (packSr z n c o)[1] = n := by
  cases z <;> cases n <;> cases c <;> cases o <;> rfl

@[simp] theorem packSr_carry (z n c o : Bool) : (packSr z n c o)[2] = c := by
  cases z <;> cases n <;> cases c <;> cases o <;> rfl

@[simp] theorem packSr_overflow (z n c o : Bool) : (packSr z n c o)[3] = o := by
  cases z <;> cases n <;> cases c <;> cases o <;> rfl

variable (dst : Byte) (r : AluResult) (s : State)

@[simp] theorem setFlags_eq : setFlags r s = s.setSr (packSr (r.value == 0) (r.value.getLsbD 7) r.carry r.overflow) := rfl

@[simp] theorem writeResult_regs : (writeResult dst r s).regs = s.regs.set dst.toNat r.value := rfl
@[simp] theorem writeResult_memSize : (writeResult dst r s).memSize = s.memSize := rfl
@[simp] theorem writeResult_mem : (writeResult dst r s).mem = s.mem := rfl
@[simp] theorem writeResult_pc : (writeResult dst r s).pc = s.pc := rfl
@[simp] theorem writeResult_ir : (writeResult dst r s).ir = s.ir := rfl
@[simp] theorem writeResult_sp : (writeResult dst r s).sp = s.sp := rfl
@[simp] theorem writeResult_halted : (writeResult dst r s).halted = s.halted := rfl
@[simp] theorem writeResult_fault : (writeResult dst r s).fault = s.fault := rfl
@[simp] theorem writeResult_N : (writeResult dst r s).N = s.N := by simp [State.N]
@[simp] theorem writeResult_M : (writeResult dst r s).M = s.M := rfl

/-! The flags are read from `SR` alone, so nothing but a write of `SR` changes them. -/

@[simp] theorem State.setPc_flagZ (v : Word) : (s.setPc v).flagZ = s.flagZ := rfl
@[simp] theorem State.recordIr_flagZ (o a : Byte) : (s.recordIr o a).flagZ = s.flagZ := rfl
@[simp] theorem State.halt_flagZ : s.halt.flagZ = s.flagZ := rfl
@[simp] theorem State.setReg_flagZ (i v : Byte) : (s.setReg i v).flagZ = s.flagZ := rfl
@[simp] theorem State.writeMem_flagZ (a : Nat) (v : Byte) : (s.writeMem a v).flagZ = s.flagZ := rfl

theorem writeResult_sr :
    (writeResult dst r s).sr = packSr (r.value == 0) (r.value.getLsbD 7) r.carry r.overflow := rfl

end Sys2Proof.Machine
end

