-- ==== Sys2Proof/Laws/Exec.lean ====
section
/-! SUPPORT. What each shared operation can do, said once: the checks, the exception, a result, and the iteration. -/

namespace Sys2Proof.Machine

/-- Either every check passes and the effect happens, or the first failure is raised: always a next state. -/
theorem checked_cases (f : Option FaultLatch) (e : State → State) (s : State) :
    (f = none ∧ checked f e s = .next (e s)) ∨ (∃ g, f = some g ∧ checked f e s = .next (raiseOutOfBounds g s)) := by
  cases f with
  | none => exact .inl ⟨rfl, rfl⟩
  | some g => exact .inr ⟨g, rfl, rfl⟩

theorem regCheck_eq_none {i : Byte} {s : State} : regCheck i s = none ↔ i.toNat < s.N := by
  simp [regCheck]

theorem memCheck_eq_none {a : Byte} {s : State} : memCheck a s = none ↔ a.toNat < s.M := by
  simp [memCheck]

theorem regCheck_fails {i : Byte} {s : State} (h : s.N ≤ i.toNat) : regCheck i s = some (.register i) := by
  simp [regCheck, h]

theorem memCheck_fails {a : Byte} {s : State} (h : s.M ≤ a.toNat) : memCheck a s = some (.memory a) := by
  simp [memCheck, h]

theorem checkRegReg_eq_none {p q : Byte} {s : State} : checkRegReg p q s = none ↔ p.toNat < s.N ∧ q.toNat < s.N := by
  simp [checkRegReg, regCheck_eq_none]

theorem checkRegMem_eq_none {p a : Byte} {s : State} : checkRegMem p a s = none ↔ p.toNat < s.N ∧ a.toNat < s.M := by
  simp [checkRegMem, regCheck_eq_none, memCheck_eq_none]

/-- Raising changes the latch alone, and only an empty one. -/
theorem raiseOutOfBounds_eq (f : FaultLatch) (s : State) :
    raiseOutOfBounds f s = { s with fault := if s.fault = .none then f else s.fault } := by
  obtain ⟨_, _, _, _, _, _, _, _, latch⟩ := s
  cases latch <;> rfl

/-- Writing a result leaves the value, the derived flags and the frame of `ResultIn`. -/
theorem writeResult_resultIn {d : Byte} {s : State} (h : d.toNat < s.N) (r : AluResult) :
    ResultIn s (writeResult d r s) d.toNat r.value r.carry r.overflow where
  value := State.setReg_reg?_self s d r.value h
  zero := by simp [State.flagZ, writeResult_sr, beq_eq_decide]
  negative := by simp [State.flagN, writeResult_sr]
  carry := by simp [State.flagC, writeResult_sr]
  overflow := by simp [State.flagO, writeResult_sr]
  others := fun _ hj => State.setReg_reg?_other s d r.value hj
  memory := fun _ => rfl
  pc := rfl
  rest := ⟨by simp, rfl, rfl, rfl, rfl, rfl⟩

/-- With both registers present, the two-register form writes its result. -/
theorem binaryOp_of_regs {f : Byte → Byte → AluResult} {p q x y : Byte} {s : State}
    (hp : s.reg? p.toNat = some x) (hq : s.reg? q.toNat = some y) :
    binaryOp f p q s = .next (writeResult p (f x y) s) := by
  have hc : checkRegReg p q s = none := checkRegReg_eq_none.mpr ⟨s.lt_N_of_reg? hp, s.lt_N_of_reg? hq⟩
  simp only [binaryOp, hc, checked, s.reg_of_reg? hp, s.reg_of_reg? hq]

/-- With its register present, the one-register form writes its result. -/
theorem unaryOp_of_reg {f : Byte → AluResult} {p x : Byte} {s : State} (hp : s.reg? p.toNat = some x) :
    unaryOp f p s = .next (writeResult p (f x) s) := by
  have hc : checkReg p s = none := regCheck_eq_none.mpr (s.lt_N_of_reg? hp)
  simp only [unaryOp, hc, checked, s.reg_of_reg? hp]

/-- The first failing check of the two-register form. -/
theorem checkRegReg_fails {p q : Byte} {s : State} :
    (s.N ≤ p.toNat → checkRegReg p q s = some (.register p)) ∧
    (p.toNat < s.N → s.N ≤ q.toNat → checkRegReg p q s = some (.register q)) :=
  ⟨fun h => by simp [checkRegReg, regCheck_fails h],
   fun hp hq => by simp [checkRegReg, regCheck_eq_none.mpr hp, regCheck_fails hq]⟩

/-- The first failing check of the register and address form. -/
theorem checkRegMem_fails {p a : Byte} {s : State} :
    (s.N ≤ p.toNat → checkRegMem p a s = some (.register p)) ∧
    (p.toNat < s.N → s.M ≤ a.toNat → checkRegMem p a s = some (.memory a)) :=
  ⟨fun h => by simp [checkRegMem, regCheck_fails h],
   fun hp ha => by simp [checkRegMem, regCheck_eq_none.mpr hp, memCheck_fails ha]⟩

/-- A failed check makes the instruction raise, in the words of the claims. -/
theorem checked_fails {f : Option FaultLatch} {g : FaultLatch} (h : f = some g) (e : State → State) (s : State) :
    checked f e s = .next { s with fault := if s.fault = .none then g else s.fault } := by
  rw [h, ← raiseOutOfBounds_eq]
  rfl

/-- Every instruction answers a next state, on every state. -/
theorem exec_next (i : Instr) (s : State) : ∃ t, exec i s = .next t := by
  have h : ∀ f e, ∃ t, checked f e s = .next t := fun f e => by
    rcases checked_cases f e s with ⟨_, h⟩ | ⟨_, _, h⟩ <;> exact ⟨_, h⟩
  cases i
  case jmp => exact ⟨_, rfl⟩
  case jz => exact ⟨_, rfl⟩
  case jnz => exact ⟨_, rfl⟩
  case halt => exact ⟨_, rfl⟩
  all_goals simp only [exec, execLoad, execStore, execMove, execAdd, execSub, execInc, execDec, execAnd, execOr, execXor,
    execNot, execShl, execShr, binaryOp, unaryOp, h]

/-- What one iteration can do: one of the three fetches. -/
theorem fetch_cases (s : State) :
    (s.M ≤ s.pc.toNat ∧ fetch s = .noByte) ∨
    (s.pc.toNat < s.M ∧ s.M ≤ s.pc.toNat + 2 ∧ fetch s = .partialFetch) ∨
    (s.pc.toNat + 2 < s.M ∧
      fetch s = .full (s.readMem s.pc.toNat) (s.readMem (s.pc.toNat + 1)) (s.readMem (s.pc.toNat + 2))) := by
  unfold fetch
  by_cases h1 : s.M ≤ s.pc.toNat
  · exact .inl ⟨h1, by simp [h1]⟩
  · by_cases h2 : s.M ≤ s.pc.toNat + 2
    · exact .inr (.inl ⟨by omega, h2, by simp [h1, h2]⟩)
    · exact .inr (.inr ⟨by omega, by simp [h1, h2]⟩)

/-- A step of a running state is one iteration. -/
theorem runLoopStep_running {opc : OpcodeMap} {s : State} (h : s.Running) :
    runLoopStep opc s = runIterationWith opc s := by
  simp [runLoopStep, h.1, h.2]

end Sys2Proof.Machine
end

