-- ==== Sys2Proof/Laws/Effect.lean ====
section
/-! SUPPORT. Every instruction as its checks followed by its effect, so that a fact about all instructions is one fact about
the checks and one about the effects. -/

namespace Sys2Proof.Machine

/-- The fault that the instruction's checks raise, if any: the table of 40_execute_dispatch.md R73. -/
def operandFault (i : Instr) (s : State) : Option FaultLatch :=
  match i with
  | .load p q | .store p q => checkRegMem p q s
  | .move p q | .add p q | .sub p q | .and p q | .or p q | .xor p q => checkRegReg p q s
  | .inc p _ | .dec p _ | .not p _ | .shl p _ | .shr p _ => checkReg p s
  | .jmp _ _ | .jz _ _ | .jnz _ _ | .halt _ _ => none

/-- What the instruction writes once its checks have passed. -/
def effectOf (i : Instr) (s : State) : State :=
  match i with
  | .load d a => loadByte d a s
  | .store r a => storeByte r a s
  | .move p d => moveByte p d s
  | .add p q => writeResult p (addResult (s.reg p) (s.reg q)) s
  | .sub p q => writeResult p (subResult (s.reg p) (s.reg q)) s
  | .inc p _ => writeResult p (incResult (s.reg p)) s
  | .dec p _ => writeResult p (decResult (s.reg p)) s
  | .and p q => writeResult p (andResult (s.reg p) (s.reg q)) s
  | .or p q => writeResult p (orResult (s.reg p) (s.reg q)) s
  | .xor p q => writeResult p (xorResult (s.reg p) (s.reg q)) s
  | .not p _ => writeResult p (notResult (s.reg p)) s
  | .shl p _ => writeResult p (shlResult (s.reg p)) s
  | .shr p _ => writeResult p (shrResult (s.reg p)) s
  | .jmp h l => s.setPc (jumpTarget h l)
  | .jz h l => if s.flagZ then s.setPc (jumpTarget h l) else s
  | .jnz h l => if s.flagZ then s else s.setPc (jumpTarget h l)
  | .halt _ _ => s.halt

/-- Every instruction is its checks, then its effect. -/
theorem exec_eq_checked (i : Instr) (s : State) : exec i s = checked (operandFault i s) (effectOf i) s := by
  cases i <;> rfl

/-- An instruction whose operands exist has its effect. -/
theorem exec_of_passes {i : Instr} {s : State} (h : operandFault i s = none) : exec i s = .next (effectOf i s) := by
  rw [exec_eq_checked, h]
  rfl

/-- An instruction with a bad operand only raises. -/
theorem exec_of_fails {i : Instr} {s : State} {f : FaultLatch} (h : operandFault i s = some f) :
    exec i s = .next { s with fault := if s.fault = .none then f else s.fault } := by
  rw [exec_eq_checked]
  exact checked_fails h _ _

/-- The checks pass exactly for a well-formed instruction. -/
theorem operandFault_eq_none (i : Instr) (s : State) : operandFault i s = none ↔ i.wellFormed s.N s.M = true := by
  cases i <;> simp [operandFault, Instr.wellFormed, checkRegMem_eq_none, checkRegReg_eq_none, checkReg, regCheck_eq_none]

/-- The checks look at `N` and `M` only. -/
theorem operandFault_congr (i : Instr) {s t : State} (hN : t.N = s.N) (hM : t.M = s.M) :
    operandFault i t = operandFault i s := by
  cases i <;> simp only [operandFault, checkRegMem, checkRegReg, checkReg, regCheck, memCheck, hN, hM]

/-- A raised fault is never the empty latch. -/
theorem operandFault_ne_none {i : Instr} {s : State} {f : FaultLatch} (h : operandFault i s = some f) : f ≠ .none := by
  have reg : ∀ p, regCheck p s ≠ some .none := fun p => by
    unfold regCheck
    split <;> simp
  have mem : ∀ p, memCheck p s ≠ some .none := fun p => by
    unfold memCheck
    split <;> simp
  rintro rfl
  cases i <;> simp_all [operandFault, checkRegMem, checkRegReg, checkReg, Option.or_eq_some_iff]

/-- What an effect can be: a result in a register, a stored byte, a new `PC`, nothing, or the halted flag. -/
theorem effectOf_cases (i : Instr) (s : State) :
    (∃ d r, i.dest? = some d ∧ effectOf i s = writeResult d r s) ∨
    (∃ r a, i = .store r a ∧ effectOf i s = s.writeMem a.toNat (s.reg r)) ∨
    (∃ h l, (i = .jmp h l ∨ (i = .jz h l ∧ s.flagZ = true) ∨ (i = .jnz h l ∧ s.flagZ = false)) ∧
      effectOf i s = s.setPc (jumpTarget h l)) ∨
    (∃ h l, ((i = .jz h l ∧ s.flagZ = false) ∨ (i = .jnz h l ∧ s.flagZ = true)) ∧ effectOf i s = s) ∨
    (∃ j k, i = .halt j k ∧ effectOf i s = s.halt) := by
  cases i
  case store r a => exact .inr (.inl ⟨r, a, rfl, rfl⟩)
  case jmp h l => exact .inr (.inr (.inl ⟨h, l, .inl rfl, rfl⟩))
  case jz h l =>
    cases hz : s.flagZ
    · exact .inr (.inr (.inr (.inl ⟨h, l, .inl ⟨rfl, rfl⟩, by simp [effectOf, hz]⟩)))
    · exact .inr (.inr (.inl ⟨h, l, .inr (.inl ⟨rfl, rfl⟩), by simp [effectOf, hz]⟩))
  case jnz h l =>
    cases hz : s.flagZ
    · exact .inr (.inr (.inl ⟨h, l, .inr (.inr ⟨rfl, rfl⟩), by simp [effectOf, hz]⟩))
    · exact .inr (.inr (.inr (.inl ⟨h, l, .inr ⟨rfl, rfl⟩, by simp [effectOf, hz]⟩)))
  case halt j k => exact .inr (.inr (.inr (.inr ⟨j, k, rfl, rfl⟩)))
  all_goals exact .inl ⟨_, _, rfl, rfl⟩

/-- The target a jump loads, as a number (44_control.md R120). -/
theorem jumpTarget_toNat (h l : Byte) : (jumpTarget h l).toNat = h.toNat * 256 + l.toNat := by
  have hl := l.isLt
  unfold jumpTarget
  rw [BitVec.toNat_append, ← Nat.shiftLeft_add_eq_or_of_lt hl, Nat.shiftLeft_eq]

/-- What `IR` holds after recording, as a number (10_state.md R15). -/
theorem recordIr_eq (s : State) (opcode op1 : Byte) :
    s.recordIr opcode op1 = { s with ir := BitVec.ofNat 16 (opcode.toNat * 256 + op1.toNat) } := by
  have h : (opcode ++ op1 : Word) = BitVec.ofNat 16 (opcode.toNat * 256 + op1.toNat) := by
    rw [← jumpTarget_toNat, BitVec.ofNat_toNat]
    exact (BitVec.setWidth_eq _).symm
  rw [← h]
  rfl

/-- Decoding three bytes and looking their opcode up are one thing. -/
theorem executeOneWith_of_decode {opc : OpcodeMap} {o a b : Byte} {i : Instr} {rest : List Byte}
    (h : decodeWith opc (o :: a :: b :: rest) = .instr i rest) (s : State) :
    executeOneWith opc o a b s = exec i (s.recordIr o a) := by
  cases hm : lookupOpcode opc o with
  | some m =>
    have hi : instrOf m a b = i := by simpa [decodeWith, hm] using h
    simp [executeOneWith, hm, hi]
  | none => simp [decodeWith, hm] at h

/-- Moving `PC` on from below `M` never wraps (10_state.md R14). -/
theorem advancePc_eq (s : State) (n : Nat) :
    s.advancePc n = { s with pc := BitVec.ofNat 16 (s.pc.toNat + n) } := by
  have h : s.pc + BitVec.ofNat 16 n = BitVec.ofNat 16 (s.pc.toNat + n) := by
    apply BitVec.eq_of_toNat_eq
    simp
  unfold State.advancePc
  rw [h]
  rfl

end Sys2Proof.Machine
end

