-- ==== Sys2Proof/Laws/HostRun.lean ====
section
/-! SUPPORT. A call of the host taken apart, and the one induction over a run. -/

namespace Sys2Proof.Machine

@[simp] theorem latchedReply_of_none {s : State} (h : s.fault = .none) : latchedReply s = .done := by
  simp [latchedReply, h]

@[simp] theorem latchedReply_of_faulted {s : State} (h : s.fault ≠ .none) : latchedReply s = .raised s.fault := by
  unfold latchedReply
  split <;> simp_all

theorem hostAnswers_op_iff {o : HostOp} {s t : State} {r : HostReply} :
    HostAnswers (.op o) s t r ↔ hostDo o s = .next (t, r) :=
  ⟨fun h => by cases h; assumption, .op⟩

theorem hostAnswers_run_iff {s t : State} {r : HostReply} :
    HostAnswers .run s t r ↔ RunEnds s t ∧ RunReplies s t r :=
  ⟨fun h => by cases h; exact ⟨‹_›, ‹_›⟩, fun h => .run h.1 h.2⟩

/-- A run of a stopped engine ends at once. -/
theorem runEnds_of_stopped {s t : State} (h : ¬ s.Running) : RunEnds s t ↔ t = s := by
  refine ⟨fun hr => ?_, fun e => e.symm ▸ .stop h⟩
  cases hr with
  | stop => rfl
  | more h' => exact absurd h' h

/-- A run of a running engine is one step and then a run. -/
theorem runEnds_of_step {s t u : State} (h : s.Running) (hs : step s = .next t) : RunEnds s u ↔ RunEnds t u := by
  refine ⟨fun hr => ?_, .more h hs⟩
  cases hr with
  | stop h' => exact absurd h h'
  | more _ hs' hr' =>
    rw [hs] at hs'
    cases hs'
    exact hr'

/-- What every step keeps, a run keeps. -/
theorem runEnds_keeps {P : State → Prop} (hstep : ∀ s t, P s → step s = .next t → P t) {s t : State} (h : RunEnds s t) :
    P s → P t := by
  induction h with
  | stop => exact id
  | more _ hs _ ih => exact fun hp => ih (hstep _ _ hp hs)

end Sys2Proof.Machine
end

