-- ==== Sys2Proof/Laws/Memory.lean ====
section
/-! SUPPORT. Memory: what a write leaves to be read, that every operation keeps the canonical form, and that canonical
memories with the same bytes are equal data. -/

namespace Sys2Proof.Machine

@[simp] theorem Memory.read_nil (a : Nat) : Memory.read [] a = 0 := rfl

theorem Memory.read_cons (c : Host.Cell) (m : Memory) (a : Nat) :
    Memory.read (c :: m) a = if c.1 = a then c.2 else Memory.read m a := rfl

theorem Memory.erase_cons (c : Host.Cell) (m : Memory) (a : Nat) :
    Memory.erase (c :: m) a = if c.1 = a then Memory.erase m a else c :: Memory.erase m a := by
  by_cases h : c.1 = a <;> simp [Memory.erase, h]

theorem Memory.read_erase (m : Memory) (a b : Nat) :
    Memory.read (Memory.erase m a) b = if b = a then 0 else Memory.read m b := by
  induction m with
  | nil => simp [Memory.erase]
  | cons c m ih =>
    by_cases hc : c.1 = a
    · by_cases hb : b = a
      · rw [Memory.erase_cons, if_pos hc, ih, if_pos hb, if_pos hb]
      · simp [Memory.erase_cons, hc, ih, hb, Memory.read_cons, Ne.symm hb]
    · rw [Memory.erase_cons, if_neg hc, Memory.read_cons, Memory.read_cons, ih]
      split <;> simp_all

theorem Memory.read_insert (m : Memory) (a b : Nat) (v : Byte) :
    Memory.read (Memory.insert (Memory.erase m a) a v) b = if b = a then v else Memory.read m b := by
  have general : ∀ l : Memory, (∀ c ∈ l, c.1 ≠ a) →
      Memory.read (Memory.insert l a v) b = if b = a then v else Memory.read l b := by
    intro l
    induction l with
    | nil => intro _; simp [Memory.insert, Memory.read_cons, eq_comm]
    | cons c l ih =>
      intro h
      have hc : c.1 ≠ a := h c (by simp)
      have hl := ih (fun d hd => h d (by simp [hd]))
      unfold Memory.insert
      split
      · simp [Memory.read_cons, eq_comm]
      · rw [Memory.read_cons, Memory.read_cons, hl]
        split <;> simp_all
  rw [general _ (by simp [Memory.erase]), Memory.read_erase]
  split <;> rfl

/-- A write sets the byte at its address and no other. -/
theorem Memory.read_write (m : Memory) (a b : Nat) (v : Byte) :
    Memory.read (Memory.write m a v) b = if b = a then v else Memory.read m b := by
  unfold Memory.write
  split
  · next h => rw [Memory.read_erase, h]
  · exact Memory.read_insert m a b v

theorem Memory.wf_cons (c : Host.Cell) (m : Memory) :
    Memory.wf (c :: m) = true ↔ c.2 ≠ 0 ∧ (∀ d ∈ m, c.1 < d.1) ∧ Memory.wf m = true := by
  simp [Memory.wf, and_assoc]

theorem Memory.mem_insert {m : Memory} {a : Nat} {v : Byte} {d : Host.Cell} :
    d ∈ Memory.insert m a v ↔ d = (a, v) ∨ d ∈ m := by
  induction m with
  | nil => simp [Memory.insert]
  | cons c m ih =>
    unfold Memory.insert
    split
    · simp
    · simp [ih, or_left_comm]

theorem Memory.wf_erase {m : Memory} (h : Memory.wf m = true) (a : Nat) : Memory.wf (Memory.erase m a) = true := by
  induction m with
  | nil => exact h
  | cons c m ih =>
    obtain ⟨h1, h2, h3⟩ := (Memory.wf_cons c m).mp h
    rw [Memory.erase_cons]
    split
    · exact ih h3
    · exact (Memory.wf_cons _ _).mpr ⟨h1, fun d hd => h2 d (List.mem_filter.mp hd).1, ih h3⟩

theorem Memory.wf_insert {m : Memory} (h : Memory.wf m = true) {a : Nat} {v : Byte} (hv : v ≠ 0)
    (ha : ∀ c ∈ m, c.1 ≠ a) : Memory.wf (Memory.insert m a v) = true := by
  induction m with
  | nil => exact (Memory.wf_cons _ _).mpr ⟨hv, by simp, rfl⟩
  | cons c m ih =>
    obtain ⟨h1, h2, h3⟩ := (Memory.wf_cons c m).mp h
    have hc : c.1 ≠ a := ha c (by simp)
    unfold Memory.insert
    split
    · next hlt =>
      refine (Memory.wf_cons _ _).mpr ⟨hv, fun d hd => ?_, h⟩
      rcases List.mem_cons.mp hd with rfl | hd
      · exact hlt
      · exact hlt.trans (h2 d hd)
    · refine (Memory.wf_cons _ _).mpr ⟨h1, fun d hd => ?_, ih h3 (fun d hd => ha d (by simp [hd]))⟩
      rcases Memory.mem_insert.mp hd with rfl | hd
      · show c.1 < a
        omega
      · exact h2 d hd

/-- A write keeps the canonical form. -/
theorem Memory.wf_write {m : Memory} (h : Memory.wf m = true) (a : Nat) (v : Byte) :
    Memory.wf (Memory.write m a v) = true := by
  unfold Memory.write
  split
  · exact Memory.wf_erase h a
  · next hv => exact Memory.wf_insert (Memory.wf_erase h a) hv (by simp [Memory.erase])

/-- What a write can list. -/
theorem Memory.mem_write {m : Memory} {a : Nat} {v : Byte} {d : Host.Cell} (h : d ∈ Memory.write m a v) :
    d.1 = a ∨ d ∈ m := by
  unfold Memory.write at h
  split at h
  · exact .inr (List.mem_filter.mp h).1
  · rcases Memory.mem_insert.mp h with rfl | h
    · exact .inl rfl
    · exact .inr (List.mem_filter.mp h).1

/-- Copying bytes keeps the canonical form. -/
theorem Memory.wf_writeFrom {m : Memory} (h : Memory.wf m = true) (a : Nat) (bs : List Byte) :
    Memory.wf (Memory.writeFrom m a bs) = true := by
  induction bs generalizing m a with
  | nil => exact h
  | cons b bs ih => exact ih (Memory.wf_write h a b) (a + 1)

/-- What copying bytes can list. -/
theorem Memory.mem_writeFrom {m : Memory} {a : Nat} {bs : List Byte} {d : Host.Cell}
    (h : d ∈ Memory.writeFrom m a bs) : (a ≤ d.1 ∧ d.1 < a + bs.length) ∨ d ∈ m := by
  induction bs generalizing m a with
  | nil => exact .inr h
  | cons b bs ih =>
    rcases ih h with h | h
    · exact .inl ⟨by omega, by simp only [List.length_cons]; omega⟩
    · rcases Memory.mem_write h with h | h
      · exact .inl ⟨by omega, by simp only [List.length_cons]; omega⟩
      · exact .inr h

/-- What is read after copying bytes to ascending addresses. -/
theorem Memory.read_writeFrom (m : Memory) (a : Nat) (bs : List Byte) (b : Nat) :
    Memory.read (Memory.writeFrom m a bs) b = if a ≤ b then bs.getD (b - a) (Memory.read m b) else Memory.read m b := by
  induction bs generalizing m a with
  | nil => simp [Memory.writeFrom]
  | cons x bs ih =>
    rw [Memory.writeFrom, ih, Memory.read_write]
    by_cases h1 : a + 1 ≤ b
    · obtain ⟨k, hk⟩ : ∃ k, b - a = k + 1 := ⟨b - a - 1, by omega⟩
      have hk' : b - (a + 1) = k := by omega
      simp [h1, hk, hk', show b ≠ a by omega, show a ≤ b by omega]
    · by_cases h2 : b = a
      · simp [h2]
      · simp [h1, h2, show ¬ a ≤ b by omega]

theorem Memory.read_eq_zero {m : Memory} {a : Nat} (h : ∀ c ∈ m, c.1 ≠ a) : Memory.read m a = 0 := by
  induction m with
  | nil => rfl
  | cons c m ih =>
    rw [Memory.read_cons, if_neg (h c (by simp)), ih (fun d hd => h d (by simp [hd]))]

/-- Canonical memories that read the same everywhere are the same data. -/
theorem Memory.ext {m n : Memory} (hm : Memory.wf m = true) (hn : Memory.wf n = true)
    (h : ∀ a, Memory.read m a = Memory.read n a) : m = n := by
  induction m generalizing n with
  | nil =>
    cases n with
    | nil => rfl
    | cons d n =>
      have hd := ((Memory.wf_cons d n).mp hn).1
      have := h d.1
      simp [Memory.read_cons] at this
      exact absurd this.symm hd
  | cons c m ih =>
    obtain ⟨hc1, hc2, hc3⟩ := (Memory.wf_cons c m).mp hm
    cases n with
    | nil =>
      have := h c.1
      simp [Memory.read_cons] at this
      exact absurd this hc1
    | cons d n =>
      obtain ⟨hd1, hd2, hd3⟩ := (Memory.wf_cons d n).mp hn
      have hcd : c.1 = d.1 := by
        rcases Nat.lt_trichotomy c.1 d.1 with hlt | heq | hgt
        · have := h c.1
          rw [Memory.read_cons, if_pos rfl, Memory.read_eq_zero (m := d :: n)] at this
          · exact absurd this hc1
          · intro e he
            rcases List.mem_cons.mp he with rfl | he
            · omega
            · have := hd2 e he
              omega
        · exact heq
        · have := h d.1
          rw [Memory.read_cons d, if_pos rfl, Memory.read_eq_zero (m := c :: m)] at this
          · exact absurd this.symm hd1
          · intro e he
            rcases List.mem_cons.mp he with rfl | he
            · omega
            · have := hc2 e he
              omega
      have hv : c.2 = d.2 := by
        have := h c.1
        simpa [Memory.read_cons, hcd] using this
      have htail : m = n := by
        refine ih hc3 hd3 (fun a => ?_)
        have ha := h a
        rw [Memory.read_cons, Memory.read_cons, ← hcd] at ha
        split at ha
        · next hca =>
          rw [Memory.read_eq_zero (m := m) (fun e he => by have := hc2 e he; omega),
            Memory.read_eq_zero (m := n) (fun e he => by have := hd2 e he; omega)]
        · exact ha
      rw [htail, Prod.ext hcd hv]

end Sys2Proof.Machine
end

