-- ==== Sys2Proof/Laws/PerInstr.lean ====
section
/-! SUPPORT. Per-instruction statements: the shape of every instruction's encoding (spec/30_encoding.md R50). -/

/-- Under every opcode map an instruction's encoding is three bytes, the opcode first, and the instruction is the one its row
and its two operand bytes make. -/
def Sys2Proof.Laws.EncodingShape.Statement (i : Sys2Proof.Instr) : Prop :=
  (∀ opc : Sys2Proof.OpcodeMap, (Sys2Proof.encodeWith opc i).length = 3 ∧
    (Sys2Proof.encodeWith opc i).head? = some (opc i.mnemonic)) ∧
  Sys2Proof.instrOf i.mnemonic i.op1 i.op2 = i

namespace Sys2Proof.Laws.EncodingShape

theorem load (a b : Byte) : Statement (.load a b) := ⟨fun _ => ⟨rfl, rfl⟩, rfl⟩
theorem store (a b : Byte) : Statement (.store a b) := ⟨fun _ => ⟨rfl, rfl⟩, rfl⟩
theorem move (a b : Byte) : Statement (.move a b) := ⟨fun _ => ⟨rfl, rfl⟩, rfl⟩
theorem add (a b : Byte) : Statement (.add a b) := ⟨fun _ => ⟨rfl, rfl⟩, rfl⟩
theorem sub (a b : Byte) : Statement (.sub a b) := ⟨fun _ => ⟨rfl, rfl⟩, rfl⟩
theorem inc (a b : Byte) : Statement (.inc a b) := ⟨fun _ => ⟨rfl, rfl⟩, rfl⟩
theorem dec (a b : Byte) : Statement (.dec a b) := ⟨fun _ => ⟨rfl, rfl⟩, rfl⟩
theorem and (a b : Byte) : Statement (.and a b) := ⟨fun _ => ⟨rfl, rfl⟩, rfl⟩
theorem or (a b : Byte) : Statement (.or a b) := ⟨fun _ => ⟨rfl, rfl⟩, rfl⟩
theorem xor (a b : Byte) : Statement (.xor a b) := ⟨fun _ => ⟨rfl, rfl⟩, rfl⟩
theorem not (a b : Byte) : Statement (.not a b) := ⟨fun _ => ⟨rfl, rfl⟩, rfl⟩
theorem shl (a b : Byte) : Statement (.shl a b) := ⟨fun _ => ⟨rfl, rfl⟩, rfl⟩
theorem shr (a b : Byte) : Statement (.shr a b) := ⟨fun _ => ⟨rfl, rfl⟩, rfl⟩
theorem jmp (a b : Byte) : Statement (.jmp a b) := ⟨fun _ => ⟨rfl, rfl⟩, rfl⟩
theorem jz (a b : Byte) : Statement (.jz a b) := ⟨fun _ => ⟨rfl, rfl⟩, rfl⟩
theorem jnz (a b : Byte) : Statement (.jnz a b) := ⟨fun _ => ⟨rfl, rfl⟩, rfl⟩
theorem halt (a b : Byte) : Statement (.halt a b) := ⟨fun _ => ⟨rfl, rfl⟩, rfl⟩

end Sys2Proof.Laws.EncodingShape
end

