-- ==== Sys2Proof/Tests/Slice0.lean ====
section
/-! SUPPORT. Tests of the model against the spec's worked examples (95_test_vectors.md), the smoke test of well-formedness,
and for each statement with hypotheses a witness that meets them. -/

namespace Sys2Proof.Tests

open Sys2Proof.Machine

/-- The state an outcome leads to. -/
def after (o : Host.Outcome State Fault Refusal) : Option State :=
  match o with
  | .next t => some t
  | _ => none

/-- An engine of 2 registers and 4 cells with all four flags set (95_test_vectors.md part 2). -/
def two (x y : Byte) : State := { State.resetWith ⟨2, 4⟩ with regs := [x, y], sr := 0xF }

/-- The registers and `SR` after an instruction. -/
def regsSr (i : Instr) (s : State) : Option (List Byte × Nibble) := (after (exec i s)).map (fun t => (t.regs, t.sr))

/-! Words written out bit by bit from 30_encoding.md R50, R52: opcode byte, op1 = 10100101, op2 = 00111100. -/

theorem test_word_load : decodeTableWord 24 0b000000001010010100111100 = some (.load 0xA5 0x3C) := by decide
theorem test_word_store : decodeTableWord 24 0b000000011010010100111100 = some (.store 0xA5 0x3C) := by decide
theorem test_word_move : decodeTableWord 24 0b000000101010010100111100 = some (.move 0xA5 0x3C) := by decide
theorem test_word_add : decodeTableWord 24 0b000000111010010100111100 = some (.add 0xA5 0x3C) := by decide
theorem test_word_sub : decodeTableWord 24 0b000001001010010100111100 = some (.sub 0xA5 0x3C) := by decide
theorem test_word_inc : decodeTableWord 24 0b000001011010010100111100 = some (.inc 0xA5 0x3C) := by decide
theorem test_word_dec : decodeTableWord 24 0b000001101010010100111100 = some (.dec 0xA5 0x3C) := by decide
theorem test_word_and : decodeTableWord 24 0b000001111010010100111100 = some (.and 0xA5 0x3C) := by decide
theorem test_word_or : decodeTableWord 24 0b000010001010010100111100 = some (.or 0xA5 0x3C) := by decide
theorem test_word_xor : decodeTableWord 24 0b000010011010010100111100 = some (.xor 0xA5 0x3C) := by decide
theorem test_word_not : decodeTableWord 24 0b000010101010010100111100 = some (.not 0xA5 0x3C) := by decide
theorem test_word_shl : decodeTableWord 24 0b000010111010010100111100 = some (.shl 0xA5 0x3C) := by decide
theorem test_word_shr : decodeTableWord 24 0b000011001010010100111100 = some (.shr 0xA5 0x3C) := by decide
theorem test_word_jmp : decodeTableWord 24 0b000011011010010100111100 = some (.jmp 0xA5 0x3C) := by decide
theorem test_word_jz : decodeTableWord 24 0b000011101010010100111100 = some (.jz 0xA5 0x3C) := by decide
theorem test_word_jnz : decodeTableWord 24 0b000011111010010100111100 = some (.jnz 0xA5 0x3C) := by decide
theorem test_word_halt : decodeTableWord 24 0b000100001010010100111100 = some (.halt 0xA5 0x3C) := by decide
/-- The lowest opcode byte outside the table (R54). -/
theorem test_word_unknown : decodeTableWord 24 0b000100011010010100111100 = none := by decide
/-- The encoder writes the example bytes of R90. -/
theorem test_encode_load : encode (.load 0 10) = [0x00, 0x00, 0x0A] := by decide

/-! Well-formedness on 2 registers and 4 cells: one ill-formed term a check (40_execute_dispatch.md R73). -/

theorem test_wf_accepts : ∀ i ∈ [Instr.load 1 3, .store 1 3, .move 1 0, .inc 1 255, .jmp 255 255, .halt 255 255],
    i.wellFormed 2 4 = true := by decide
theorem test_wf_refuses_load_register : (Instr.load 2 0).wellFormed 2 4 = false := by decide
theorem test_wf_refuses_load_address : (Instr.load 1 4).wellFormed 2 4 = false := by decide
theorem test_wf_refuses_store_address : (Instr.store 0 255).wellFormed 2 255 = false := by decide
theorem test_wf_refuses_first_register : (Instr.add 2 0).wellFormed 2 4 = false := by decide
theorem test_wf_refuses_second_register : (Instr.move 0 5).wellFormed 2 4 = false := by decide
theorem test_wf_refuses_only_register : (Instr.shr 2 0).wellFormed 2 4 = false := by decide

/-! One step each, on the rows of 95_test_vectors.md part 2 (start `SR` = 0xF). -/

theorem test_load_negative : regsSr (.load 1 3) { two 9 9 with mem := [(3, 0x80)] } = some ([9, 0x80], 0x2) := by decide
theorem test_load_zero : regsSr (.load 0 3) (two 9 9) = some ([0, 9], 0x1) := by decide
theorem test_store : (after (exec (.store 1 2) (two 0 0xAB))).map (fun t => (t.mem, t.sr)) = some ([(2, 0xAB)], 0xF) := by
  decide
/-- Storing 0, what an unlisted cell holds, lists nothing (log entry 19). -/
theorem test_store_zero : (after (exec (.store 0 2) { two 0 0 with mem := [(2, 7)] })).map State.mem = some [] := by decide
theorem test_move_zero : regsSr (.move 0 1) (two 0 9) = some ([0, 0], 0x1) := by decide
theorem test_move_same : regsSr (.move 0 0) (two 0x80 9) = some ([0x80, 9], 0x2) := by decide
theorem test_add_overflow : regsSr (.add 0 1) (two 127 1) = some ([128, 1], 0xA) := by decide
theorem test_add_same : regsSr (.add 0 0) (two 0x90 1) = some ([0x20, 1], 0xC) := by decide
theorem test_sub_borrow : regsSr (.sub 0 1) (two 10 20) = some ([246, 20], 0x6) := by decide
theorem test_sub_overflow : regsSr (.sub 0 1) (two 0 128) = some ([128, 128], 0xE) := by decide
theorem test_inc_wraps : regsSr (.inc 0 0x99) (two 255 1) = some ([0, 1], 0x5) := by decide
theorem test_inc_overflow : regsSr (.inc 0 0x99) (two 127 1) = some ([128, 1], 0xA) := by decide
theorem test_dec_wraps : regsSr (.dec 0 0x99) (two 0 1) = some ([255, 1], 0x6) := by decide
theorem test_dec_overflow : regsSr (.dec 0 0x99) (two 128 1) = some ([127, 1], 0x8) := by decide
theorem test_and : regsSr (.and 0 1) (two 0xF0 0x0F) = some ([0, 0x0F], 0x1) := by decide
theorem test_or : regsSr (.or 0 1) (two 0x01 0x02) = some ([0x03, 0x02], 0x0) := by decide
theorem test_xor : regsSr (.xor 0 1) (two 0xAA 0x55) = some ([0xFF, 0x55], 0x2) := by decide
theorem test_not : regsSr (.not 1 0) (two 1 0x0F) = some ([1, 0xF0], 0x2) := by decide
theorem test_shl_zero_carry : regsSr (.shl 0 0) (two 0x80 1) = some ([0, 1], 0x5) := by decide
theorem test_shl_negative : regsSr (.shl 0 0) (two 0x40 1) = some ([0x80, 1], 0x2) := by decide
theorem test_shr_logical : regsSr (.shr 0 0) (two 0x81 1) = some ([0x40, 1], 0x4) := by decide
theorem test_shr_zero_carry : regsSr (.shr 0 0) (two 0x01 1) = some ([0, 1], 0x5) := by decide
/-- "fault (1, 9): `op1` reported first"; registers and `SR` unchanged, `IR` already written. -/
theorem test_fault_op1_first : (after (executeOne 0x00 9 200 (two 3 4))).map (fun t => (t.fault, t.regs, t.sr, t.ir)) =
    some (.register 9, [3, 4], 0xF, 0x0009) := by decide
theorem test_fault_memory : (after (executeOne 0x00 1 4 (two 3 4))).map (fun t => (t.fault.cause, t.fault.index, t.sr)) =
    some (2, 4, 0xF) := by decide
theorem test_jmp : (after (executeOne 0x0D 0x12 0x34 (two 0 0))).map (fun t => (t.pc, t.ir, t.sr)) =
    some (4660, 0x0D12, 0xF) := by decide
theorem test_jz_not_taken : (after (executeOne 0x0E 0 3 { two 0 0 with pc := 7, sr := 0 })).map State.pc = some 7 := by decide
theorem test_jnz_looks_at_z_only : (after (executeOne 0x0F 0 3 { two 0 0 with pc := 7, sr := 0x6 })).map State.pc = some 3 := by
  decide
theorem test_halt : (after (executeOne 0x10 7 7 (two 0 0))).map (fun t => (t.halted, t.ir, t.pc)) =
    some (true, 0x1007, 0) := by decide
theorem test_unknown : (after (executeOne 0x11 3 4 { two 0 0 with sr := 6 })).map (fun t => (t.halted, t.ir, t.sr, t.fault)) =
    some (true, 0x1103, 6, .none) := by decide
/-- "executes although halted" -/
theorem test_executes_although_halted : (after (executeOne 0x05 0 0 { two 255 0 with halted := true })).map
    (fun t => (t.regs, t.sr, t.halted)) = some ([0, 0], 0x5, true) := by decide

/-- An engine of one register and 8 cells with a program placed from 0 (95_test_vectors.md P7). -/
def eight (bytes : List Byte) : State := { State.resetWith ⟨1, 8⟩ with mem := Memory.writeFrom [] 0 bytes }

/-- P7 row 1, second iteration: no byte at `PC`, which stays. -/
theorem test_step_past_end : (after (step { eight [] with pc := 258 })).map (fun t => (t.pc, t.halted)) =
    some (258, true) := by decide
/-- P7 row 3, second iteration: a HALT in the last two cells is never decoded. -/
theorem test_step_partial_fetch : (after (step { eight [0x0D, 0, 6, 0, 0, 0, 0x10, 0] with pc := 6, ir := 0x0D00 })).map
    (fun t => (t.pc, t.ir, t.halted)) = some (7, 0x0D00, true) := by decide
/-- P7 row 4, second iteration: the last full fetch. -/
theorem test_step_last_full_fetch : (after (step { eight [0x0D, 0, 5, 0, 0, 0x10, 7, 9] with pc := 5 })).map
    (fun t => (t.pc, t.ir, t.halted)) = some (8, 0x1007, true) := by decide
/-- P3: a STORE over the next instruction's opcode is what the next fetch finds. -/
theorem test_self_modifying : ((after (step { eight [0x01, 0, 3, 0x0D, 0, 0] with regs := [0x10] })).bind
    (fun t => after (step t))).map (fun t => (t.pc, t.ir, t.halted)) = some (6, 0x1000, true) := by decide
/-- A latched fault stops the run loop. -/
theorem test_step_faulted : after (step { eight [] with fault := .register 5 }) = none := by decide
/-- Reset values (95_test_vectors.md E1). -/
theorem test_reset : (State.resetWith ⟨4, 32⟩).regs = [0, 0, 0, 0] ∧ (State.resetWith ⟨4, 32⟩).sp = 31 ∧
    (State.resetWith ⟨4, 32⟩).mem? 31 = some 0 ∧ (State.resetWith ⟨4, 32⟩).mem? 32 = none ∧
    (State.resetWith ⟨4, 32⟩).pc = 0 := by decide
theorem test_reset_no_memory : (State.resetWith ⟨2, 0⟩).sp = 0xFF := by decide
/-- The word placed at reset is the first instruction the machine runs. -/
theorem test_place_jmp : (after (step (State.reset.withFetchWord 24 0x0D1234))).map (fun t => (t.pc, t.ir)) =
    some (0x1234, 0x0D12) := by decide
theorem test_place_inc : (after (step (State.reset.withFetchWord 24 0x050100))).bind (fun t => t.reg? 1) = some 1 := by decide
/-- `Load` of E2, and the refusal of nine bytes on eight cells. -/
theorem test_load_program : (hostLoad [0x10, 0x01, 0x02] { eight [] with mem := [(5, 0x77)] }).1.mem =
    [(0, 0x10), (1, 0x01), (2, 0x02), (5, 0x77)] := by decide
theorem test_load_too_long : hostLoad (List.replicate 9 1) (eight []) = (eight [], .capacityExceeded) := by decide

/-! Witnesses: states and operands that meet the hypotheses of each statement, each clause at a boundary of its range. -/

theorem witness_LoadReadsMemory : ((1 : Byte).toNat < (two 3 4).N ∧ (two 3 4).mem? (3 : Byte).toNat = some 0) ∧
    (two 3 4).N ≤ (2 : Byte).toNat ∧ ((1 : Byte).toNat < (two 3 4).N ∧ (two 3 4).M ≤ (4 : Byte).toNat) := by decide
theorem witness_StoreWritesMemory : ((two 3 4).reg? (1 : Byte).toNat = some 4 ∧ (3 : Byte).toNat < (two 3 4).M) ∧
    (two 3 4).N ≤ (2 : Byte).toNat ∧ ((1 : Byte).toNat < (two 3 4).N ∧ (two 3 4).M ≤ (4 : Byte).toNat) := by decide
theorem witness_MoveCopiesRegister : ((two 3 4).reg? (0 : Byte).toNat = some 3 ∧ (1 : Byte).toNat < (two 3 4).N) ∧
    (two 3 4).N ≤ (2 : Byte).toNat ∧ ((1 : Byte).toNat < (two 3 4).N ∧ (two 3 4).N ≤ (2 : Byte).toNat) := by decide

/-- Both registers readable, and the two ways to fail: the hypotheses of ADD, SUB, AND, OR and XOR. -/
def RegRegHypotheses (s : State) (p q x y p' q' : Byte) : Prop :=
  (s.reg? p.toNat = some x ∧ s.reg? q.toNat = some y) ∧ s.N ≤ p'.toNat ∧ (p.toNat < s.N ∧ s.N ≤ q'.toNat)

/-- The register readable, and the way to fail: the hypotheses of INC, DEC, NOT, SHL and SHR. -/
def RegHypotheses (s : State) (p x p' : Byte) : Prop := s.reg? p.toNat = some x ∧ s.N ≤ p'.toNat

theorem witness_AddWrapsAndSetsFlags : RegRegHypotheses (two 255 1) 0 1 255 1 2 2 := by unfold RegRegHypotheses; decide
theorem witness_SubWrapsAndSetsFlags : RegRegHypotheses (two 0 255) 0 1 0 255 2 2 := by unfold RegRegHypotheses; decide
theorem witness_AndActsBitwise : RegRegHypotheses (two 3 4) 1 0 4 3 255 255 := by unfold RegRegHypotheses; decide
theorem witness_OrActsBitwise : RegRegHypotheses (two 3 4) 1 1 4 4 2 2 := by unfold RegRegHypotheses; decide
theorem witness_XorActsBitwise : RegRegHypotheses (two 3 3) 0 1 3 3 2 2 := by unfold RegRegHypotheses; decide
theorem witness_IncAddsOne : RegHypotheses (two 255 1) 0 255 2 := by unfold RegHypotheses; decide
theorem witness_DecSubtractsOne : RegHypotheses (two 0 1) 0 0 2 := by unfold RegHypotheses; decide
theorem witness_NotComplements : RegHypotheses (two 3 4) 1 4 2 := by unfold RegHypotheses; decide
theorem witness_ShlDoubles : RegHypotheses (two 3 128) 1 128 2 := by unfold RegHypotheses; decide
theorem witness_ShrHalves : RegHypotheses (two 3 1) 1 1 255 := by unfold RegHypotheses; decide
theorem witness_JzJumpsOnZero : (two 0 0).flagZ = true ∧ { two 0 0 with sr := 0xE }.flagZ = false := by decide
theorem witness_JnzJumpsOnNonzero : { two 0 0 with sr := 0xE }.flagZ = false ∧ (two 0 0).flagZ = true := by decide

/-- Another injective opcode map, so that the statements over every map are not about one. -/
def shiftedTable : OpcodeMap := fun m => opcodeTable m + 0x80

theorem shiftedTable_injective : ∀ m n, shiftedTable m = shiftedTable n → m = n := by
  intro m n h
  cases m <;> cases n <;> first | rfl | exact absurd h (by decide)

theorem witness_DecodeOfEncode : (∀ m n, opcodeTable m = opcodeTable n → m = n) ∧
    (∀ m n, shiftedTable m = shiftedTable n → m = n) := ⟨opcodeTable_injective, shiftedTable_injective⟩
theorem witness_EveryThreeBytesDecode : (0x10 : Byte).toNat ≤ 0x10 ∧ 0x10 < (0x11 : Byte).toNat := by decide
theorem witness_OpcodeByteAloneSelects : ∀ m n, shiftedTable m = shiftedTable n → m = n := shiftedTable_injective
theorem witness_ExecuteOneRecordsThenDispatches : (∀ m n, opcodeTable m = opcodeTable n → m = n) ∧
    encodeWith opcodeTable (.halt 42 8) = [0x10, 42, 8] ∧ ∀ m, opcodeTable m ≠ 0x11 :=
  ⟨opcodeTable_injective, rfl, fun m => by cases m <;> decide⟩

/-- Eight cells whose last three hold an INC, with `PC` there: the last place a full fetch can start. -/
def atLastPlace : State := { eight [0, 0, 0, 0, 0, 0x05, 0, 9] with pc := 5 }

theorem atLastPlace_running : atLastPlace.Running := ⟨rfl, rfl⟩

theorem witness_StepRunsDecodedInstruction : atLastPlace.Running ∧ atLastPlace.mem? atLastPlace.pc.toNat = some 0x05 ∧
    atLastPlace.mem? (atLastPlace.pc.toNat + 1) = some 0 ∧ atLastPlace.mem? (atLastPlace.pc.toNat + 2) = some 9 ∧
    decode [0x05, 0, 9] = .instr (.inc 0 9) [] := ⟨atLastPlace_running, by decide⟩
theorem witness_RunLoopRunsEveryOpcodeMap : (∀ m n, opcodeTable m = opcodeTable n → m = n) ∧ atLastPlace.Running ∧
    ∀ k b, (encodeWith opcodeTable (.inc 0 9))[k]? = some b → atLastPlace.mem? (atLastPlace.pc.toNat + k) = some b := by
  refine ⟨opcodeTable_injective, atLastPlace_running, fun k b h => ?_⟩
  match k, h with
  | 0, h => exact h ▸ (by decide)
  | 1, h => exact h ▸ (by decide)
  | 2, h => exact h ▸ (by decide)
theorem witness_FullFetchThenExecutes : atLastPlace.Running ∧ atLastPlace.mem? atLastPlace.pc.toNat = some 0x05 ∧
    atLastPlace.mem? (atLastPlace.pc.toNat + 1) = some 0 ∧ atLastPlace.mem? (atLastPlace.pc.toNat + 2) = some 9 :=
  ⟨atLastPlace_running, by decide⟩
theorem witness_FetchPastEndHalts : { eight [] with pc := 8 }.Running ∧
    State.M { eight [] with pc := 8 } ≤ (8 : Word).toNat := ⟨⟨rfl, rfl⟩, by decide⟩
/-- Both places a partial fetch can start. -/
theorem witness_PartialFetchHalts :
    ({ eight [] with pc := 6 }.Running ∧ (6 : Word).toNat < State.M (eight []) ∧ State.M (eight []) ≤ (6 : Word).toNat + 2) ∧
    ({ eight [] with pc := 7 }.Running ∧ (7 : Word).toNat < State.M (eight []) ∧ State.M (eight []) ≤ (7 : Word).toNat + 2) :=
  ⟨⟨⟨rfl, rfl⟩, by decide⟩, ⟨⟨rfl, rfl⟩, by decide⟩⟩
/-- A fetched HALT, a fetched unknown opcode, a partial fetch and a fetch past the end, each on a running engine. -/
theorem witness_HaltsOnExactlyThreeEvents :
    { eight [0, 0, 0, 0, 0, 0x10, 7, 9] with pc := 5 }.Running ∧ decode [0x10, 7, 9] = .instr (.halt 7 9) [] ∧
    { eight [0xFF, 0xEE, 0xDD] with pc := 0 }.Running ∧ decode [0xFF, 0xEE, 0xDD] = .unknownOpcode 0xFF 0xEE 0xDD [] ∧
    { eight [] with pc := 6 }.Running ∧ { eight [] with pc := 8 }.Running :=
  ⟨⟨rfl, rfl⟩, by decide, ⟨rfl, rfl⟩, by decide, ⟨rfl, rfl⟩, ⟨rfl, rfl⟩⟩
theorem witness_StoppedEngineMakesNoIteration : { eight [] with halted := true }.Final ∧
    { eight [] with fault := .register 5 }.fault = .register 5 ∧ { eight [] with fault := .memory 8 }.fault = .memory 8 ∧
    ¬ { eight [] with halted := true }.Running := ⟨⟨rfl, rfl⟩, rfl, rfl, fun h => absurd h.1 (by decide)⟩
/-- A run of one iteration: the fetch past the end. -/
theorem witness_RunEndsInOneStoppedState : RunEnds { eight [] with pc := 8 } { eight [] with pc := 8, halted := true } :=
  .more ⟨rfl, rfl⟩ rfl (.stop (fun h => absurd h.1 (by decide)))
theorem witness_JmpToItselfNeverEnds : { eight [0, 0, 0, 0, 0, 0x0D, 0, 5] with pc := 5 }.Running ∧
    State.mem? (eight [0, 0, 0, 0, 0, 0x0D, 0, 5]) 5 = some 0x0D ∧
    State.mem? (eight [0, 0, 0, 0, 0, 0x0D, 0, 5]) 6 = some 0 ∧
    State.mem? (eight [0, 0, 0, 0, 0, 0x0D, 0, 5]) 7 = some 5 ∧
    decode [0x0D, 0, 5] = .instr (.jmp 0 5) [] ∧ (0 : Byte).toNat * 256 + (5 : Byte).toNat = (5 : Word).toNat :=
  ⟨⟨rfl, rfl⟩, by decide⟩
theorem witness_OnlyResetClearsHaltedAndFault :
    (∃ t, step { eight [] with halted := true } = .next t ∧ t.halted = true) ∧
    (∃ t r, hostDo (.writePc 3) { eight [] with halted := true, fault := .register 5 } = .next (t, r)) ∧
    (∀ p, HostOp.writePc 3 ≠ .reset p) ∧
    HostAnswers .run { eight [] with pc := 8 } { eight [] with pc := 8, halted := true } .done :=
  ⟨⟨_, rfl, rfl⟩, ⟨_, _, rfl⟩, (fun _ h => by cases h), .run witness_RunEndsInOneStoppedState (.inl rfl)⟩
theorem witness_HaltAndFaultNeverTogether : atLastPlace.Running := atLastPlace_running
theorem witness_OutOfBoundsExactlyOnBadOperands : (two 3 4).fault = .none ∧ (∀ m, opcodeTable m ≠ 0x11) ∧
    { eight [] with pc := 6 }.Running ∧ State.M (eight []) ≤ (6 : Word).toNat + 2 :=
  ⟨rfl, fun m => by cases m <;> decide, ⟨rfl, rfl⟩, by decide⟩
theorem witness_FaultEntryIsPrecise : (∀ i ∈ [Instr.load 2 9, .load 1 4, .add 1 2, .inc 2 0],
    i.wellFormed (two 3 4).N (two 3 4).M = false) ∧ (two 3 4).fault = .none ∧
    { two 3 4 with fault := .memory 4 }.fault ≠ .none := by decide
theorem witness_FlagsFollowTheTable : (∀ i ∈ [Instr.move 0 1, .shl 1 0, .add 1 0], i.dest? = some 1 ∧
    i.wellFormed (two 3 4).N (two 3 4).M = true) ∧ (Instr.store 0 0).dest? = none ∧ (∀ m, opcodeTable m ≠ 0x11) :=
  ⟨by decide, rfl, fun m => by cases m <;> decide⟩
theorem witness_StatusFullyRecomputed : ((Instr.inc 1 0).dest? ≠ none ∧ (Instr.inc 1 0).wellFormed (two 3 4).N (two 3 4).M = true) ∧
    (Instr.jz 0 0).dest? = none ∧ (∀ m, opcodeTable m ≠ 0x11) ∧ (1 : Nibble).getLsbD 0 = (two 3 4).flagZ :=
  ⟨by decide, rfl, fun m => by cases m <;> decide, by decide⟩
theorem witness_OnlyLoadReadsOnlyStoreWrites : ((Instr.move 0 1).mnemonic ≠ .LOAD ∧ (Instr.move 0 1).mnemonic ≠ .STORE) ∧
    (1 : Byte).toNat < (two 3 4).N ∧ (3 : Byte).toNat < (two 3 4).M := by decide
theorem witness_IrAndSpAreNeverRead : atLastPlace.Running := atLastPlace_running
theorem witness_SameRegisterUsesOldValues : (two 3 0x90).reg? (1 : Byte).toNat = some 0x90 := by decide
theorem witness_OverflowIsSignedRange : (two 127 1).reg? (0 : Byte).toNat = some 127 ∧
    (two 127 1).reg? (1 : Byte).toNat = some 1 := by decide
theorem witness_StoreIsSeenByFetch : (two 3 4).reg? (1 : Byte).toNat = some 4 ∧ (3 : Byte).toNat < (two 3 4).M ∧
    (1 : Word).toNat + 2 < (two 3 4).M := by decide
theorem witness_PcNeverWraps : atLastPlace.Running := atLastPlace_running
theorem witness_LoadCopiesProgram : (eight []).fault = .none ∧ (List.replicate 8 (7 : Byte)).length ≤ (eight []).M ∧
    ([] : List Byte).length ≤ (eight []).M := by decide
theorem witness_TooLongLoadIsRefused : (eight []).fault = .none ∧ (eight []).M < (List.replicate 9 (7 : Byte)).length := by
  decide
theorem witness_HostExecuteOneReports : (eight []).fault = .none ∧ { eight [] with fault := .memory 8 }.fault ≠ .none := by
  decide
/-- R186: `Run` of LOAD R1, 0 on an engine of one register latches (1, R1), and that is what the host gets back. -/
theorem test_run_reports_fault :
    HostAnswers .run (eight [0x00, 1, 0]) { eight [0x00, 1, 0] with pc := 3, ir := 0x0001, fault := .register 1 }
      (.raised (.register 1)) :=
  .run (.more ⟨rfl, rfl⟩ rfl (.stop fun h => by cases h.2)) (.inl rfl)
theorem witness_RunReportsWhatItLatched : (eight []).fault = .none ∧ { eight [] with halted := true }.Final ∧
    { eight [] with fault := .memory 8 }.Faulted ∧ (eight [0x00, 1, 0]).Running ∧
    (∃ t, step (eight [0x00, 1, 0]) = .next t ∧ t.Faulted) ∧ ∃ t, step (eight []) = .next t ∧ t.fault = .none :=
  ⟨rfl, ⟨rfl, rfl⟩, nofun, ⟨rfl, rfl⟩, ⟨_, rfl, nofun⟩, _, rfl, rfl⟩
theorem witness_AccessorsReadBackWrites : 1 < (two 3 4).N ∧ 3 < (two 3 4).M ∧ (two 3 4).N ≤ 2 ∧ (two 3 4).M ≤ 4 := by decide

theorem two_inv : (two 3 4).Inv := ⟨by decide, by decide, by decide⟩

theorem witness_StepKeepsInvariant : (two 3 4).Inv ∧ ∃ t, step (two 3 4) = .next t := ⟨two_inv, _, rfl⟩
theorem witness_HostKeepsInvariant : (two 3 4).Inv ∧ (∃ t r, HostAnswers (.op (.load [1, 2, 3, 4])) (two 3 4) t r) ∧
    ∃ t r, HostAnswers .run { two 3 4 with halted := true } t r :=
  ⟨two_inv, ⟨_, _, .op rfl⟩, _, _, .run (.stop fun h => absurd h.1 (by decide)) (.inl rfl)⟩
theorem witness_ResetLeavesZeros : 0 < (⟨1, 1⟩ : Params).regCount.toNat ∧ 1 ≤ (⟨1, 1⟩ : Params).memSize.toNat ∧
    (⟨1, 0⟩ : Params).memSize.toNat = 0 := by decide

end Sys2Proof.Tests
end

/-! PROOFS. The invariant along steps, host operations and runs, and how a run ends (spec/00_scope.md). -/

namespace Sys2Proof.Machine

section Invariant

/-! ### The invariant and the state's operations: it looks at the registers' number, `M` and memory only. -/

variable {s : State}

@[simp] theorem State.setReg_inv_iff (i v : Byte) : (s.setReg i v).Inv ↔ s.Inv := by simp [State.Inv]
@[simp] theorem State.setPc_inv_iff (v : Word) : (s.setPc v).Inv ↔ s.Inv := Iff.rfl
@[simp] theorem State.recordIr_inv_iff (o a : Byte) : (s.recordIr o a).Inv ↔ s.Inv := Iff.rfl
@[simp] theorem State.setSr_inv_iff (v : Nibble) : (s.setSr v).Inv ↔ s.Inv := Iff.rfl
@[simp] theorem State.halt_inv_iff : s.halt.Inv ↔ s.Inv := Iff.rfl
@[simp] theorem State.advancePc_inv_iff (n : Nat) : (s.advancePc n).Inv ↔ s.Inv := Iff.rfl
@[simp] theorem State.withFault_inv_iff (f : FaultLatch) : { s with fault := f }.Inv ↔ s.Inv := Iff.rfl

@[simp] theorem writeResult_inv_iff (dst : Byte) (r : AluResult) : (writeResult dst r s).Inv ↔ s.Inv :=
  (State.setSr_inv_iff _).trans (State.setReg_inv_iff dst r.value)

/-- Storing a byte in a cell that exists. -/
theorem State.Inv.writeMem (hs : s.Inv) {a : Nat} (ha : a < s.M) (v : Byte) : (s.writeMem a v).Inv := by
  obtain ⟨hregs, hwf, hcells⟩ := hs
  refine ⟨hregs, Memory.wf_write hwf a v, fun c hc => ?_⟩
  rcases Memory.mem_write hc with rfl | hc
  · exact ha
  · exact hcells c hc

/-- Copying a program that fits in memory. -/
theorem State.Inv.writeFrom (hs : s.Inv) {a : Nat} {bytes : List Byte} (hfit : a + bytes.length ≤ s.M) :
    { s with mem := Memory.writeFrom s.mem a bytes }.Inv := by
  obtain ⟨hregs, hwf, hcells⟩ := hs
  refine ⟨hregs, Memory.wf_writeFrom hwf a bytes, fun c hc => ?_⟩
  rcases Memory.mem_writeFrom hc with ⟨_, hlt⟩ | hc
  · exact hlt.trans_le hfit
  · exact hcells c hc

/-- Reset: a register count is a byte, and no cell is listed. -/
theorem State.resetWith_inv (p : Params) : (State.resetWith p).Inv := by
  have hcount : (State.resetWith p).regs.length = p.regCount.toNat := List.length_replicate
  have hbyte := p.regCount.isLt
  exact ⟨by omega, rfl, nofun⟩

end Invariant

section Step

/-! ### What a step can do, and the invariant after it -/

/-- `ExecuteOne` runs the row's instruction, or halts on an opcode of no row. -/
theorem executeOneWith_cases (opc : OpcodeMap) (o a b : Byte) (s : State) :
    (∃ m, lookupOpcode opc o = some m ∧ executeOneWith opc o a b s = exec (instrOf m a b) (s.recordIr o a)) ∨
    (lookupOpcode opc o = none ∧ executeOneWith opc o a b s = .next (s.recordIr o a).halt) := by
  cases h : lookupOpcode opc o with
  | some m => exact .inl ⟨m, rfl, by simp [executeOneWith, h]⟩
  | none => exact .inr ⟨rfl, by simp [executeOneWith, h]⟩

/-- A turn of the run loop that answers a next state: a final engine stays, a running one fetches nothing, fetches
only a part, or executes the three bytes at `PC`. -/
theorem runLoopStep_cases {opc : OpcodeMap} {s t : State} (h : runLoopStep opc s = .next t) :
    (s.Final ∧ t = s) ∨
    (s.Running ∧ s.M ≤ s.pc.toNat ∧ t = s.halt) ∨
    (s.Running ∧ s.pc.toNat < s.M ∧ s.M ≤ s.pc.toNat + 2 ∧ t = (s.advancePc 1).halt) ∨
    (s.Running ∧ s.pc.toNat + 2 < s.M ∧
      executeOneWith opc (s.readMem s.pc.toNat) (s.readMem (s.pc.toNat + 1)) (s.readMem (s.pc.toNat + 2))
        (s.advancePc 3) = .next t) := by
  cases hf : s.fault with
  | register i => simp [runLoopStep, hf] at h
  | memory a => simp [runLoopStep, hf] at h
  | none =>
    cases hh : s.halted with
    | true =>
      have : s = t := by simpa [runLoopStep, hf, hh] using h
      exact .inl ⟨⟨hh, hf⟩, this.symm⟩
    | false =>
      have hrun : s.Running := ⟨hh, hf⟩
      rw [runLoopStep_running hrun] at h
      rcases fetch_cases s with ⟨hp, hfetch⟩ | ⟨hp, hp2, hfetch⟩ | ⟨hp2, hfetch⟩ <;>
        simp only [runIterationWith, hfetch, Host.Outcome.next.injEq] at h
      · exact .inr (.inl ⟨hrun, hp, h.symm⟩)
      · exact .inr (.inr (.inl ⟨hrun, hp, hp2, h.symm⟩))
      · exact .inr (.inr (.inr ⟨hrun, hp2, h⟩))

variable {s t : State}

/-- The effect of an instruction whose operands exist: only STORE touches memory, in a cell that its check admitted. -/
theorem effectOf_inv (hs : s.Inv) {i : Instr} (hpass : operandFault i s = none) : (effectOf i s).Inv := by
  rcases effectOf_cases i s with ⟨d, r, -, he⟩ | ⟨r, a, rfl, he⟩ | ⟨h, l, -, he⟩ | ⟨h, l, -, he⟩ | ⟨j, k, -, he⟩ <;> rw [he]
  · exact (writeResult_inv_iff d r).mpr hs
  · exact hs.writeMem (checkRegMem_eq_none.mp hpass).2 _
  · exact (State.setPc_inv_iff _).mpr hs
  · exact hs
  · exact State.halt_inv_iff.mpr hs

theorem exec_inv (hs : s.Inv) {i : Instr} (h : exec i s = .next t) : t.Inv := by
  cases hop : operandFault i s with
  | none =>
    rw [exec_of_passes hop] at h
    cases h
    exact effectOf_inv hs hop
  | some f =>
    rw [exec_of_fails hop] at h
    cases h
    exact (State.withFault_inv_iff _).mpr hs

theorem executeOneWith_inv (hs : s.Inv) {opc : OpcodeMap} {o a b : Byte} (h : executeOneWith opc o a b s = .next t) :
    t.Inv := by
  have hir : (s.recordIr o a).Inv := (State.recordIr_inv_iff o a).mpr hs
  rcases executeOneWith_cases opc o a b s with ⟨m, -, he⟩ | ⟨-, he⟩ <;> rw [he] at h
  · exact exec_inv hir h
  · cases h
    exact State.halt_inv_iff.mpr hir

theorem runLoopStep_inv (hs : s.Inv) {opc : OpcodeMap} (h : runLoopStep opc s = .next t) : t.Inv := by
  rcases runLoopStep_cases h with ⟨-, rfl⟩ | ⟨-, -, rfl⟩ | ⟨-, -, -, rfl⟩ | ⟨-, -, he⟩
  · exact hs
  · exact State.halt_inv_iff.mpr hs
  · exact State.halt_inv_iff.mpr ((State.advancePc_inv_iff 1).mpr hs)
  · exact executeOneWith_inv ((State.advancePc_inv_iff 3).mpr hs) he

end Step

/-- Settles O51: the case split over what a turn of the run loop can do, under the spec's opcode map. -/
theorem stepKeepsInvariant : Obligations.StepKeepsInvariant :=
  fun _ _ hs h => runLoopStep_inv hs h

section RunEnd

/-! ### How a run ends -/

variable {s t u : State}

theorem State.final_or_faulted_of_not_running (h : ¬ s.Running) : s.Final ∨ s.Faulted := by
  by_cases hf : s.fault = .none
  · exact .inl ⟨Bool.eq_true_of_not_eq_false fun hh => h ⟨hh, hf⟩, hf⟩
  · exact .inr hf

theorem State.Final.not_faulted (h : s.Final) : ¬ s.Faulted := fun hf => hf h.2

theorem runEnds_not_running (h : RunEnds s t) : ¬ t.Running := by
  induction h with
  | stop hstop => exact hstop
  | more _ _ _ ih => exact ih

/-- `step` is a function, so no state is the start of two runs with different ends. -/
theorem runEnds_unique (h : RunEnds s t) (hu : RunEnds s u) : u = t := by
  induction h with
  | stop hstop => exact (runEnds_of_stopped hstop).mp hu
  | more hrun hs _ ih => exact ih ((runEnds_of_step hrun hs).mp hu)

end RunEnd

/-- Settles O31: the end of a run is not running, hence final or faulted, and the run is determined by induction along it. -/
theorem runEndsInOneStoppedState : Obligations.RunEndsInOneStoppedState := by
  intro s t h
  refine ⟨?_, fun u hu => runEnds_unique h hu⟩
  rcases State.final_or_faulted_of_not_running (runEnds_not_running h) with hfinal | hfaulted
  · exact .inl ⟨hfinal, hfinal.not_faulted⟩
  · exact .inr ⟨hfaulted, fun hfinal => hfinal.not_faulted hfaulted⟩

section HostOps

/-! ### What a host operation can do, and the invariant after it -/

variable {s t : State} {r : HostReply}

theorem unlessFaulted_eq_next {act : Host.Outcome (State × HostReply) Fault Refusal} {p : State × HostReply}
    (h : unlessFaulted s act = .next p) : s.fault = .none ∧ act = .next p := by
  cases hf : s.fault with
  | none => exact ⟨rfl, by simpa [unlessFaulted, hf] using h⟩
  | register i => simp [unlessFaulted, hf] at h
  | memory a => simp [unlessFaulted, hf] at h

theorem hostExecuteOne_eq_next {o a b : Byte} (h : hostExecuteOne o a b s = .next (t, r)) :
    executeOne o a b s = .next t ∧ r = latchedReply t := by
  cases he : executeOne o a b s with
  | next u =>
    obtain ⟨rfl, rfl⟩ : u = t ∧ latchedReply u = r := by simpa [hostExecuteOne, he] using h
    exact ⟨rfl, rfl⟩
  | fault f => simp [hostExecuteOne, he] at h
  | refused f => simp [hostExecuteOne, he] at h

theorem hostLoad_inv (hs : s.Inv) (bytes : List Byte) : (hostLoad bytes s).1.Inv := by
  unfold hostLoad
  split
  · next hfit => exact hs.writeFrom (by omega)
  · exact hs

theorem hostWriteReg_inv (hs : s.Inv) (i : Nat) (v : Byte) : (hostWriteReg i v s).1.Inv := by
  unfold hostWriteReg
  split
  · simpa [State.Inv, State.M] using hs
  · exact hs

theorem hostWriteMem_inv (hs : s.Inv) (a : Nat) (v : Byte) : (hostWriteMem a v s).1.Inv := by
  unfold hostWriteMem
  split
  · next ha => exact hs.writeMem ha v
  · exact hs

/-- The operations but reset, `Load`, `ExecuteOne` and the indexed writes change no register, no cell and no parameter. -/
theorem hostDo_inv (hs : s.Inv) {op : HostOp} (h : hostDo op s = .next (t, r)) : t.Inv := by
  cases op
  case reset p => cases h; exact State.resetWith_inv p
  case load bytes =>
    have hl : hostLoad bytes s = (t, r) := Host.Outcome.next.inj (unlessFaulted_eq_next h).2
    simpa only [hl] using hostLoad_inv hs bytes
  case executeOne o a b => exact executeOneWith_inv hs (hostExecuteOne_eq_next (unlessFaulted_eq_next h).2).1
  case writeReg i v => simpa only [Host.Outcome.next.inj h] using hostWriteReg_inv hs i v
  case writeMem a v => simpa only [Host.Outcome.next.inj h] using hostWriteMem_inv hs a v
  all_goals
    cases h
    exact hs

end HostOps

/-- Settles O52: each host operation by itself, and `Run()` by induction along the run with O51 for each step. -/
theorem hostKeepsInvariant : Obligations.HostKeepsInvariant := by
  intro c s t r hs h
  cases h with
  | op hop => exact hostDo_inv hs hop
  | run hrun _ => exact runEnds_keeps stepKeepsInvariant hrun hs

end Sys2Proof.Machine

/-! PROOFS. The status register (spec/10_state.md R16, R17): who reads it and who writes it. -/

namespace Sys2Proof.Machine

section StatusRegister

/-! ### Running an instruction with another `SR` -/

variable {i : Instr} {s : State}

@[simp] theorem State.setSr_flagZ (v : Nibble) : (s.setSr v).flagZ = v.getLsbD 0 := rfl

/-- A result overwrites all four bits. -/
@[simp] theorem writeResult_setSr (dst : Byte) (r : AluResult) (v : Nibble) :
    writeResult dst r (s.setSr v) = writeResult dst r s := rfl

@[simp] theorem operandFault_setSr (i : Instr) (v : Nibble) : operandFault i (s.setSr v) = operandFault i s :=
  operandFault_congr i rfl rfl

/-- What a flag-producing instruction computes is read from registers and memory, then written by `writeResult`. -/
theorem effectOf_setSr_of_dest (h : i.dest? ≠ none) (v : Nibble) : effectOf i (s.setSr v) = effectOf i s := by
  cases i
  case store | jmp | jz | jnz | halt => exact absurd rfl h
  all_goals exact writeResult_setSr _ _ v

/-- The two conditional jumps decide on Z, which `v` agrees on; the other three do not look at `SR`. -/
theorem effectOf_setSr_of_no_dest (h : i.dest? = none) {v : Nibble} (hz : v.getLsbD 0 = s.flagZ) :
    effectOf i (s.setSr v) = (effectOf i s).setSr v := by
  cases i
  case store | jmp | halt => rfl
  case jz | jnz =>
    simp only [effectOf, State.setSr_flagZ, hz]
    split <;> rfl
  all_goals cases h

theorem effectOf_sr_of_no_dest (h : i.dest? = none) : (effectOf i s).sr = s.sr := by
  rcases effectOf_cases i s with ⟨d, r, hd, -⟩ | ⟨r, a, -, he⟩ | ⟨a, l, -, he⟩ | ⟨a, l, -, he⟩ | ⟨j, k, -, he⟩
  · rw [h] at hd
    cases hd
  all_goals simp [he]

/-- A well-formed flag-producing instruction does not see the old `SR` and leaves nothing of it. -/
theorem exec_setSr_of_dest (hd : i.dest? ≠ none) (hwf : i.wellFormed s.N s.M = true) (v : Nibble) :
    ∃ t, exec i s = .next t ∧ exec i (s.setSr v) = .next t := by
  have hpass : operandFault i s = none := (operandFault_eq_none i s).mpr hwf
  refine ⟨effectOf i s, exec_of_passes hpass, ?_⟩
  rw [exec_of_passes ((operandFault_setSr i v).trans hpass), effectOf_setSr_of_dest hd]

/-- The other instructions, whether they raise or not, carry `SR` along and look at Z at most. -/
theorem exec_setSr_of_no_dest (hd : i.dest? = none) {v : Nibble} (hz : v.getLsbD 0 = s.flagZ) :
    ∃ t, exec i s = .next t ∧ exec i (s.setSr v) = .next (t.setSr v) := by
  cases hop : operandFault i s with
  | none =>
    refine ⟨effectOf i s, exec_of_passes hop, ?_⟩
    rw [exec_of_passes ((operandFault_setSr i v).trans hop), effectOf_setSr_of_no_dest hd hz]
  | some f => exact ⟨_, exec_of_fails hop, exec_of_fails ((operandFault_setSr i v).trans hop)⟩

theorem exec_sr_of_no_dest (hd : i.dest? = none) : ∃ t, exec i s = .next t ∧ t.sr = s.sr := by
  cases hop : operandFault i s with
  | none => exact ⟨_, exec_of_passes hop, effectOf_sr_of_no_dest hd⟩
  | some f => exact ⟨_, exec_of_fails hop, rfl⟩

/-- An opcode of no row only records `IR` and halts (40_execute_dispatch.md R72). -/
theorem executeOneWith_of_unknown {opc : OpcodeMap} {o : Byte} (h : ∀ m, opc m ≠ o) (a b : Byte) (s : State) :
    executeOneWith opc o a b s = .next (s.recordIr o a).halt := by
  simp [executeOneWith, lookupOpcode_none.mpr h]

end StatusRegister

/-- Settles O38: each kind of instruction run with another `SR`, and the unknown opcode's implicit halt. -/
theorem statusFullyRecomputed : Obligations.StatusFullyRecomputed := by
  refine ⟨?flagProducing, ?others, ?unknown, ?readsOnlyZ⟩
  case flagProducing => exact fun i s v hd hwf => exec_setSr_of_dest hd hwf v
  case others => exact fun i s hd => exec_sr_of_no_dest hd
  case unknown => exact fun opc o a b s hun => ⟨_, executeOneWith_of_unknown hun a b s, rfl⟩
  case readsOnlyZ => exact fun i s v hd hz => exec_setSr_of_no_dest hd hz

end Sys2Proof.Machine

/-! PROOFS. Data memory (spec/20_memory.md R44): LOAD alone reads it, STORE alone writes it. -/

namespace Sys2Proof.Machine

section DataMemory

/-! ### Running an instruction with another memory -/

variable {i : Instr} {s : State}

@[simp] theorem State.withMem_flagZ (m : Memory) : { s with mem := m }.flagZ = s.flagZ := rfl

/-- The checks look at `M`, not at what the cells hold. -/
@[simp] theorem operandFault_withMem (i : Instr) (m : Memory) : operandFault i { s with mem := m } = operandFault i s :=
  operandFault_congr i rfl rfl

/-- The effects but LOAD's and STORE's are written with operations on registers, `SR`, `PC` and `halted`, which carry
memory along; the conditional jumps decide on Z. -/
theorem effectOf_withMem (hload : i.mnemonic ≠ .LOAD) (hstore : i.mnemonic ≠ .STORE) (m : Memory) :
    effectOf i { s with mem := m } = { effectOf i s with mem := m } := by
  cases i
  case load => exact absurd rfl hload
  case store => exact absurd rfl hstore
  case jz | jnz =>
    cases hz : s.flagZ <;> simp only [effectOf, State.withMem_flagZ, hz] <;> rfl
  all_goals rfl

/-- Any instruction but LOAD and STORE, whether it raises or not, carries memory along and does not look at it. -/
theorem exec_withMem (hload : i.mnemonic ≠ .LOAD) (hstore : i.mnemonic ≠ .STORE) (m : Memory) :
    ∃ t, exec i s = .next t ∧ exec i { s with mem := m } = .next { t with mem := m } := by
  cases hop : operandFault i s with
  | none =>
    refine ⟨effectOf i s, exec_of_passes hop, ?_⟩
    rw [exec_of_passes ((operandFault_withMem i m).trans hop), effectOf_withMem hload hstore]
  | some f => exact ⟨_, exec_of_fails hop, exec_of_fails ((operandFault_withMem i m).trans hop)⟩

/-- LOAD writes a register and `SR`, or the latch. -/
theorem exec_load_mem (d a : Byte) (s : State) : ∃ t, exec (.load d a) s = .next t ∧ t.mem = s.mem := by
  cases hop : operandFault (.load d a) s with
  | none => exact ⟨_, exec_of_passes hop, rfl⟩
  | some f => exact ⟨_, exec_of_fails hop, rfl⟩

/-- STORE with another memory: it raises the same, or stores the same register's byte at the same address. -/
theorem exec_store_withMem (r a : Byte) (s : State) (m : Memory) :
    ∃ t u, exec (.store r a) s = .next t ∧ exec (.store r a) { s with mem := m } = .next { t with mem := u } ∧
      (r.toNat < s.N → a.toNat < s.M → Memory.read u a.toNat = Memory.read t.mem a.toNat) := by
  have hcheck := operandFault_withMem (s := s) (.store r a) m
  cases hop : operandFault (.store r a) s with
  | none =>
    refine ⟨_, Memory.write m a.toNat (s.reg r), exec_of_passes hop, exec_of_passes (hcheck.trans hop), fun _ _ => ?_⟩
    have hstored (n : Memory) : Memory.read (Memory.write n a.toNat (s.reg r)) a.toNat = s.reg r := by
      simp [Memory.read_write]
    exact (hstored m).trans (hstored s.mem).symm
  | some f =>
    refine ⟨_, m, exec_of_fails hop, exec_of_fails (hcheck.trans hop), fun hr ha => ?_⟩
    have hpass : operandFault (.store r a) s = none := checkRegMem_eq_none.mpr ⟨hr, ha⟩
    rw [hpass] at hop
    cases hop

end DataMemory

/-- Settles O39: each of the three kinds of instruction, LOAD, STORE and the rest, run on two memories. -/
theorem onlyLoadReadsOnlyStoreWrites : Obligations.OnlyLoadReadsOnlyStoreWrites := by
  refine ⟨?others, ?load, ?store⟩
  case others => exact fun i s m hload hstore => exec_withMem hload hstore m
  case load => exact exec_load_mem
  case store => exact exec_store_withMem

end Sys2Proof.Machine

/-! PROOFS. Decoding against encoding (spec/30_encoding.md R50 to R58), under every injective opcode map. -/

namespace Sys2Proof.Machine

section Encoding

/-! ### An instruction is its row with its two operand bytes -/

@[simp] theorem instrOf_mnemonic (m : Mnemonic) (a b : Byte) : (instrOf m a b).mnemonic = m := by cases m <;> rfl

@[simp] theorem instrOf_mnemonic_op1_op2 (i : Instr) : instrOf i.mnemonic i.op1 i.op2 = i := by cases i <;> rfl

/-! ### What three bytes decode to -/

variable {opc : OpcodeMap}

/-- Three bytes are an instruction exactly if the opcode byte is that of a row, which then takes the operand bytes. -/
theorem decodeWith_eq_instr_iff {o a b : Byte} {rest : List Byte} {i : Instr} :
    decodeWith opc (o :: a :: b :: rest) = .instr i rest ↔ ∃ m, lookupOpcode opc o = some m ∧ instrOf m a b = i := by
  cases h : lookupOpcode opc o <;> simp [decodeWith, h]

theorem lookupOpcode_eq_some_iff (inj : ∀ m n, opc m = opc n → m = n) {o : Byte} {m : Mnemonic} :
    lookupOpcode opc o = some m ↔ opc m = o := by
  refine ⟨lookupOpcode_some, ?_⟩
  rintro rfl
  exact lookupOpcode_eq inj m

theorem decodeWith_encodeWith_append (inj : ∀ m n, opc m = opc n → m = n) (i : Instr) (rest : List Byte) :
    decodeWith opc (encodeWith opc i ++ rest) = .instr i rest :=
  decodeWith_eq_instr_iff.mpr ⟨i.mnemonic, lookupOpcode_eq inj i.mnemonic, instrOf_mnemonic_op1_op2 i⟩

/-! ### Fetching and executing an encoded instruction -/

theorem executeOneWith_of_encoded (inj : ∀ m n, opc m = opc n → m = n) (i : Instr) (s : State) :
    executeOneWith opc (opc i.mnemonic) i.op1 i.op2 s = exec i (s.recordIr (opc i.mnemonic) i.op1) :=
  executeOneWith_of_decode (decodeWith_encodeWith_append inj i []) s

/-- Three cells at `PC` are a full fetch of their bytes (45_run_loop.md R131, R134). -/
theorem fetch_of_mem? {s : State} {o a b : Byte} (ho : s.mem? s.pc.toNat = some o)
    (ha : s.mem? (s.pc.toNat + 1) = some a) (hb : s.mem? (s.pc.toNat + 2) = some b) : fetch s = .full o a b := by
  obtain ⟨-, rfl⟩ := s.mem?_eq_some_iff.mp ho
  obtain ⟨-, rfl⟩ := s.mem?_eq_some_iff.mp ha
  obtain ⟨hroom, rfl⟩ := s.mem?_eq_some_iff.mp hb
  rcases fetch_cases s with ⟨hp, -⟩ | ⟨-, hp, -⟩ | ⟨-, hfetch⟩
  · omega
  · omega
  · exact hfetch

/-- A running engine with three cells at `PC` executes their bytes with `PC` moved past them. -/
theorem runLoopStep_of_mem? {s : State} (hrun : s.Running) {o a b : Byte} (ho : s.mem? s.pc.toNat = some o)
    (ha : s.mem? (s.pc.toNat + 1) = some a) (hb : s.mem? (s.pc.toNat + 2) = some b) :
    runLoopStep opc s = executeOneWith opc o a b (s.advancePc 3) := by
  rw [runLoopStep_running hrun, runIterationWith, fetch_of_mem? ho ha hb]

end Encoding

/-- Settles O18: the opcode byte finds the instruction's own row, which takes the two operand bytes back. -/
theorem decodeOfEncode : Obligations.DecodeOfEncode :=
  fun _ inj i rest => decodeWith_encodeWith_append inj i rest

/-- Settles O20: the decoded instruction is of the row that the lookup finds, and the lookup is by equality of the byte. -/
theorem opcodeByteAloneSelects : Obligations.OpcodeByteAloneSelects := by
  intro opc inj m o a b rest
  rw [← lookupOpcode_eq_some_iff inj]
  constructor
  · rintro ⟨i, hdec, rfl⟩
    obtain ⟨n, hlookup, rfl⟩ := decodeWith_eq_instr_iff.mp hdec
    rwa [instrOf_mnemonic]
  · intro hlookup
    exact ⟨instrOf m a b, decodeWith_eq_instr_iff.mpr ⟨m, hlookup, rfl⟩, instrOf_mnemonic m a b⟩

/-- Settles O25: the full fetch of the three bytes, then `ExecuteOne` of an encoded instruction. -/
theorem runLoopRunsEveryOpcodeMap : Obligations.RunLoopRunsEveryOpcodeMap := by
  intro opc inj s i hrun hbytes
  rw [runLoopStep_of_mem? hrun (hbytes 0 _ rfl) (hbytes 1 _ rfl) (hbytes 2 _ rfl), executeOneWith_of_encoded inj,
    recordIr_eq, advancePc_eq]

end Sys2Proof.Machine

/-! PROOFS. `ExecuteOne` (spec/40_execute_dispatch.md R70 to R77): dispatch, `halted` and `PC`, and the flags of a result. -/

namespace Sys2Proof.Machine

/-- Settles O22: an encoded instruction finds its own row, and an opcode of no row only halts. -/
theorem executeOneRecordsThenDispatches : Obligations.ExecuteOneRecordsThenDispatches := by
  intro opc inj o a b s
  refine ⟨?row, ?unknown⟩
  case row =>
    intro i henc
    obtain ⟨rfl, rfl, rfl⟩ : opc i.mnemonic = o ∧ i.op1 = a ∧ i.op2 = b := by simpa [encodeWith] using henc
    rw [executeOneWith_of_encoded inj, recordIr_eq]
  case unknown =>
    intro hun
    rw [executeOneWith_of_unknown hun, recordIr_eq]
    rfl

section HaltedAndPc

/-! ### Running an instruction with another `halted`, and where `PC` goes -/

variable {i : Instr} {s t : State}

@[simp] theorem State.withHalted_flagZ (h : Bool) : { s with halted := h }.flagZ = s.flagZ := rfl

@[simp] theorem operandFault_withHalted (i : Instr) (h : Bool) :
    operandFault i { s with halted := h } = operandFault i s :=
  operandFault_congr i rfl rfl

/-- The effects but HALT's carry `halted` along; the conditional jumps decide on Z. -/
theorem effectOf_withHalted (hrow : i.mnemonic ≠ .HALT) (h : Bool) :
    effectOf i { s with halted := h } = { effectOf i s with halted := h } := by
  cases i
  case halt => exact absurd rfl hrow
  case jz | jnz =>
    cases hz : s.flagZ <;> simp only [effectOf, State.withHalted_flagZ, hz] <;> rfl
  all_goals rfl

/-- No instruction, whether it raises or not, looks at `halted`, and only HALT writes it. -/
theorem exec_withHalted (i : Instr) (s : State) :
    ∃ t, exec i s = .next t ∧
      ∀ h, exec i { s with halted := h } = .next { t with halted := h || decide (i.mnemonic = .HALT) } := by
  by_cases hrow : i.mnemonic = .HALT
  · simp only [hrow, decide_true, Bool.or_true]
    cases i <;> cases hrow
    exact ⟨s.halt, rfl, fun _ => rfl⟩
  · simp only [hrow, decide_false, Bool.or_false]
    cases hop : operandFault i s with
    | none =>
      refine ⟨effectOf i s, exec_of_passes hop, fun h => ?_⟩
      rw [exec_of_passes ((operandFault_withHalted i h).trans hop), effectOf_withHalted hrow]
    | some f => exact ⟨_, exec_of_fails hop, fun h => exec_of_fails ((operandFault_withHalted i h).trans hop)⟩

/-- `PC` stays, or a jump that is taken loads its target (44_control.md R124). -/
theorem exec_pc_cases (h : exec i s = .next t) :
    t.pc = s.pc ∨ ∃ a l, (i = .jmp a l ∨ (i = .jz a l ∧ s.flagZ = true) ∨ (i = .jnz a l ∧ s.flagZ = false)) ∧
      t.pc = jumpTarget a l := by
  cases hop : operandFault i s with
  | none =>
    rw [exec_of_passes hop] at h
    cases h
    rcases effectOf_cases i s with ⟨d, r, -, he⟩ | ⟨r, a, -, he⟩ | ⟨a, l, hi, he⟩ | ⟨a, l, -, he⟩ | ⟨j, k, -, he⟩ <;>
      rw [he]
    case inr.inr.inl => exact .inr ⟨a, l, hi, rfl⟩
    all_goals exact .inl rfl
  | some f =>
    rw [exec_of_fails hop] at h
    cases h
    exact .inl rfl

/-- The same in terms of the row that `ExecuteOne` looked up. -/
theorem exec_instrOf_moves_pc {m : Mnemonic} {a b : Byte} (h : exec (instrOf m a b) s = .next t) (hpc : t.pc ≠ s.pc) :
    m = .JMP ∨ (m = .JZ ∧ s.flagZ = true) ∨ (m = .JNZ ∧ s.flagZ = false) := by
  have hrow (i : Instr) (hi : instrOf m a b = i) : m = i.mnemonic := by rw [← hi, instrOf_mnemonic]
  rcases exec_pc_cases h with hstay | ⟨c, l, hi | ⟨hi, hz⟩ | ⟨hi, hz⟩, -⟩
  · exact absurd hstay hpc
  · exact .inl (hrow _ hi)
  · exact .inr (.inl ⟨hrow _ hi, hz⟩)
  · exact .inr (.inr ⟨hrow _ hi, hz⟩)

end HaltedAndPc

/-- Settles O23: a row's instruction run with another `halted`, and the unknown opcode's implicit halt. -/
theorem executeOneIgnoresHalted : Obligations.ExecuteOneIgnoresHalted := by
  intro opc o a b s
  cases hlookup : lookupOpcode opc o with
  | some m =>
    have hrow (u : State) : executeOneWith opc o a b u = exec (instrOf m a b) (u.recordIr o a) := by
      simp [executeOneWith, hlookup]
    obtain ⟨t, hexec, hhalted⟩ := exec_withHalted (instrOf m a b) (s.recordIr o a)
    refine ⟨t, (hrow s).trans hexec, fun h => ⟨_, (hrow _).trans (hhalted h), by simp⟩, fun hpc => ?_⟩
    simpa using exec_instrOf_moves_pc hexec hpc
  | none =>
    have hhalt (u : State) : executeOneWith opc o a b u = .next (u.recordIr o a).halt :=
      executeOneWith_of_unknown (lookupOpcode_none.mp hlookup) a b u
    exact ⟨_, hhalt s, fun _ => ⟨true, hhalt _, by simp⟩, fun hpc => absurd rfl hpc⟩

section ResultAndFlags

/-! ### The result of a flag-producing instruction and its row of the table of R75 -/

variable {i : Instr} {d : Byte} {s : State}

/-- The destination is one of the operands that must exist. -/
theorem dest_lt_N_of_wellFormed (hd : i.dest? = some d) (hwf : i.wellFormed s.N s.M = true) : d.toNat < s.N := by
  cases i <;> cases hd <;> simp_all [Instr.wellFormed]

/-- The table compares numbers where the model compares bytes. -/
theorem beq_eq_decide_toNat (x y : Byte) : (x == y) = decide (x.toNat = y.toNat) := by
  rw [beq_eq_decide]
  exact decide_eq_decide.mpr BitVec.toNat_inj.symm

/-- A flag-producing effect is one result written to the destination, with the table's conditions on the old values. -/
theorem effectOf_of_dest (hd : i.dest? = some d) (s : State) :
    ∃ r, effectOf i s = writeResult d r s ∧ r.carry = i.carryCondition (s.reg i.op1) (s.reg i.op2) ∧
      r.overflow = i.overflowCondition (s.reg i.op1) (s.reg i.op2) r.value := by
  cases i <;> cases hd
  case inc | dec => exact ⟨_, rfl, beq_eq_decide_toNat _ _, beq_eq_decide_toNat _ _⟩
  all_goals exact ⟨_, rfl, rfl, rfl⟩

/-- A byte that is 0 has no high bit, so Z and N are never both set. -/
theorem ResultIn.not_zero_and_negative {t : State} {v : Byte} {n : Nat} {c o : Bool} (h : ResultIn s t n v c o) :
    ¬ (t.flagZ = true ∧ t.flagN = true) := by
  rintro ⟨hz, hn⟩
  have hv : v = 0 := by simpa [h.zero] using hz
  simp [h.negative, hv] at hn

/-- A well-formed flag-producing instruction leaves a result whose Carry and Overflow are the table's. -/
theorem exec_resultIn (hd : i.dest? = some d) (hwf : i.wellFormed s.N s.M = true) :
    ∃ t v, exec i s = .next t ∧ ResultIn s t d.toNat v (i.carryCondition (s.reg i.op1) (s.reg i.op2))
      (i.overflowCondition (s.reg i.op1) (s.reg i.op2) v) := by
  obtain ⟨r, heffect, hcarry, hoverflow⟩ := effectOf_of_dest hd s
  refine ⟨writeResult d r s, r.value, ?_, ?_⟩
  · rw [exec_of_passes ((operandFault_eq_none i s).mpr hwf), heffect]
  · rw [← hcarry, ← hoverflow]
    exact writeResult_resultIn (dest_lt_N_of_wellFormed hd hwf) r

end ResultAndFlags

/-- Settles O37: the result of each flag-producing instruction, and `SR` carried along by the rest. -/
theorem flagsFollowTheTable : Obligations.FlagsFollowTheTable := by
  refine ⟨?flagProducing, ?others, ?unknown⟩
  case flagProducing =>
    intro i s d hd hwf
    obtain ⟨t, v, hexec, hres⟩ := exec_resultIn hd hwf
    refine ⟨t, v, hexec, hres.value, ?_, hres.negative, hres.not_zero_and_negative, hres.carry, hres.overflow⟩
    simp [hres.zero, ← BitVec.toNat_inj]
  case others => exact fun i s hd => exec_sr_of_no_dest hd
  case unknown => exact fun opc o a b s hun => ⟨_, executeOneWith_of_unknown hun a b s, rfl⟩

section SameRegister

/-! ### Both operands one value -/

theorem addResult_self_value (x : Byte) : (addResult x x).value = BitVec.ofNat 8 (2 * x.toNat % 256) := by
  apply BitVec.eq_of_toNat_eq
  simp [addResult, two_mul]

theorem subResult_self (x : Byte) : subResult x x = plainResult 0 := by simp [subResult, plainResult]

theorem xorResult_self (x : Byte) : xorResult x x = plainResult 0 := by simp [xorResult]

theorem andResult_self (x : Byte) : andResult x x = plainResult x := by simp [andResult]

theorem orResult_self (x : Byte) : orResult x x = plainResult x := by simp [orResult]

/-- With both registers present, MOVE writes the source's value to the destination. -/
theorem execMove_of_reg {p d v : Byte} {s : State} (hp : s.reg? p.toNat = some v) (hd : d.toNat < s.N) :
    execMove p d s = .next (writeResult d (plainResult v) s) := by
  have hc : checkRegReg p d s = none := checkRegReg_eq_none.mpr ⟨s.lt_N_of_reg? hp, hd⟩
  simp only [execMove, hc, checked, moveByte, s.reg_of_reg? hp]

end SameRegister

/-- Settles O42: the two-register form reads the old value twice, and each operation on two equal values is a plain
result but ADD. -/
theorem sameRegisterUsesOldValues : Obligations.SameRegisterUsesOldValues := by
  intro p s x hx
  have hp : p.toNat < s.N := s.lt_N_of_reg? hx
  have hbinary (f : Byte → Byte → AluResult) : binaryOp f p p s = .next (writeResult p (f x x) s) := binaryOp_of_regs hx hx
  have hres (v : Byte) : ResultIn s (writeResult p (plainResult v) s) p.toNat v false false := writeResult_resultIn hp _
  refine ⟨?add, ?zero, ?same⟩
  case add =>
    refine ⟨_, hbinary addResult, ?_⟩
    rw [← addResult_self_value]
    exact (writeResult_resultIn hp _).value
  case zero =>
    have hzero : ∀ i ∈ [Instr.sub p p, .xor p p], exec i s = .next (writeResult p (plainResult 0) s) := by
      simp [exec, execSub, execXor, hbinary, subResult_self, xorResult_self]
    exact fun i hi => ⟨_, hzero i hi, (hres 0).value, (hres 0).zero, (hres 0).carry, (hres 0).overflow⟩
  case same =>
    have hsame : ∀ i ∈ [Instr.and p p, .or p p, .move p p], exec i s = .next (writeResult p (plainResult x) s) := by
      simp [exec, execAnd, execOr, hbinary, andResult_self, orResult_self, execMove_of_reg hx hp]
    exact fun i hi => ⟨_, hsame i hi, hres x⟩

end Sys2Proof.Machine

/-! PROOFS. LOAD, STORE and MOVE (spec/41_data_movement.md R90 to R92): what each leaves, raises and is encoded as. -/

namespace Sys2Proof.Machine

section Raising

/-! ### The exceptions of an instruction from its operand checks -/

variable {i : Instr} {p q : Byte} {s : State}

theorem raisesRegMem_of_operandFault (h : operandFault i s = checkRegMem p q s) : RaisesRegMem i p q s := by
  obtain ⟨hregister, haddress⟩ := checkRegMem_fails (p := p) (a := q) (s := s)
  exact ⟨fun hp => exec_of_fails (h.trans (hregister hp)), fun hp hq => exec_of_fails (h.trans (haddress hp hq))⟩

theorem raisesRegReg_of_operandFault (h : operandFault i s = checkRegReg p q s) : RaisesRegReg i p q s := by
  obtain ⟨hfirst, hsecond⟩ := checkRegReg_fails (p := p) (q := q) (s := s)
  exact ⟨fun hp => exec_of_fails (h.trans (hfirst hp)), fun hp hq => exec_of_fails (h.trans (hsecond hp hq))⟩

end Raising

/-- Decoding the three bytes of an instruction under the spec's opcode map. -/
theorem decode_encode (i : Instr) : decode (encode i) = .instr i [] :=
  decodeWith_encodeWith_append opcodeTable_injective i []

section Movement

/-! ### Memory after a store, and LOAD and STORE on operands that exist -/

variable {d r a v : Byte} {s : State}

/-- A stored byte is what its cell reads as. -/
theorem State.mem?_writeMem_self {n : Nat} (h : n < s.M) (v : Byte) : (s.writeMem n v).mem? n = some v := by
  simp [State.mem?, h, Memory.read_write]

/-- A store leaves the other cells. -/
theorem State.mem?_writeMem_other {n b : Nat} (h : b ≠ n) (v : Byte) : (s.writeMem n v).mem? b = s.mem? b := by
  simp [State.mem?, h, Memory.read_write]

/-- A store changes memory alone. -/
theorem State.sameRest_writeMem (n : Nat) (v : Byte) : SameRest s (s.writeMem n v) := ⟨rfl, rfl, rfl, rfl, rfl, rfl⟩

/-- With its register and its cell present, LOAD writes the cell's byte to the destination. -/
theorem exec_load_of_mem (hd : d.toNat < s.N) (ha : s.mem? a.toNat = some v) :
    exec (.load d a) s = .next (writeResult d (plainResult v) s) := by
  obtain ⟨hlt, rfl⟩ := s.mem?_eq_some_iff.mp ha
  have hpass : operandFault (.load d a) s = none := checkRegMem_eq_none.mpr ⟨hd, hlt⟩
  exact exec_of_passes hpass

/-- With its register and its cell present, STORE writes the register's value to the cell. -/
theorem exec_store_of_reg (hr : s.reg? r.toNat = some v) (ha : a.toNat < s.M) :
    exec (.store r a) s = .next (s.writeMem a.toNat v) := by
  have hpass : operandFault (.store r a) s = none := checkRegMem_eq_none.mpr ⟨s.lt_N_of_reg? hr, ha⟩
  obtain rfl := s.reg_of_reg? hr
  exact exec_of_passes hpass

end Movement

/-- Settles O1: LOAD writes a plain result, behind the register and address checks. -/
theorem loadReadsMemory : Obligations.LoadReadsMemory := by
  intro d a s
  refine ⟨?result, raisesRegMem_of_operandFault rfl, decode_encode (.load d a)⟩
  case result =>
    intro v hd ha
    exact ⟨_, exec_load_of_mem hd ha, writeResult_resultIn hd (plainResult v)⟩

/-- Settles O2: STORE writes one cell, behind the register and address checks. -/
theorem storeWritesMemory : Obligations.StoreWritesMemory := by
  intro r a s
  refine ⟨?stored, raisesRegMem_of_operandFault rfl, decode_encode (.store r a)⟩
  case stored =>
    intro v hr ha
    exact ⟨_, exec_store_of_reg hr ha, State.mem?_writeMem_self ha v, fun _ hb => State.mem?_writeMem_other hb v,
      fun _ => rfl, rfl, rfl, State.sameRest_writeMem a.toNat v⟩

/-- Settles O3: MOVE writes a plain result to its second operand, behind the two register checks. -/
theorem moveCopiesRegister : Obligations.MoveCopiesRegister := by
  intro p d s
  refine ⟨?result, raisesRegReg_of_operandFault rfl, decode_encode (.move p d)⟩
  case result =>
    intro v hp hd
    exact ⟨_, execMove_of_reg hp hd, writeResult_resultIn hd (plainResult v)⟩

end Sys2Proof.Machine

/-! PROOFS. ADD, SUB, INC and DEC (spec/42_arithmetic.md R100 to R103): what each leaves, raises and is encoded as. -/

namespace Sys2Proof.Machine

section RegisterForms

/-! ### The two register forms: the result on operands that exist, the exception of the one-register form -/

variable {p q x y : Byte} {s : State}

theorem binaryOp_resultIn (f : Byte → Byte → AluResult) (hp : s.reg? p.toNat = some x) (hq : s.reg? q.toNat = some y) :
    ∃ t, binaryOp f p q s = .next t ∧ ResultIn s t p.toNat (f x y).value (f x y).carry (f x y).overflow :=
  ⟨_, binaryOp_of_regs hp hq, writeResult_resultIn (s.lt_N_of_reg? hp) (f x y)⟩

theorem unaryOp_resultIn (f : Byte → AluResult) (hp : s.reg? p.toNat = some x) :
    ∃ t, unaryOp f p s = .next t ∧ ResultIn s t p.toNat (f x).value (f x).carry (f x).overflow :=
  ⟨_, unaryOp_of_reg hp, writeResult_resultIn (s.lt_N_of_reg? hp) (f x)⟩

theorem raises_of_operandFault {i : Instr} (h : operandFault i s = checkReg p s) (hp : s.N ≤ p.toNat) :
    Raises i s (.register p) :=
  exec_of_fails (h.trans (regCheck_fails hp))

end RegisterForms

section WrappedNumbers

/-! ### Byte arithmetic as unbounded arithmetic reduced mod 256 (42_arithmetic.md) -/

theorem byte_add_eq_ofNat (x y : Byte) : x + y = BitVec.ofNat 8 ((x.toNat + y.toNat) % 256) := by
  apply BitVec.eq_of_toNat_eq
  simp

/-- The difference is over the integers and `%` is never negative, as the spec's mod. -/
theorem byte_sub_eq_ofNat (x y : Byte) : x - y = BitVec.ofNat 8 (((x.toNat : Int) - y.toNat) % 256).toNat := by
  have hx := x.isLt
  have hy := y.isLt
  apply BitVec.eq_of_toNat_eq
  rw [BitVec.toNat_sub, BitVec.toNat_ofNat]
  omega

/-- A borrow is a negative difference. -/
theorem decide_toNat_lt_eq_decide_sub_neg (x y : Byte) :
    decide (x.toNat < y.toNat) = decide ((x.toNat : Int) - y.toNat < 0) :=
  decide_eq_decide.mpr (by omega)

end WrappedNumbers

/-- Settles O4: ADD writes the wrapped sum, behind the two register checks. -/
theorem addWrapsAndSetsFlags : Obligations.AddWrapsAndSetsFlags := by
  intro p q s
  refine ⟨?result, raisesRegReg_of_operandFault rfl, decode_encode (.add p q)⟩
  case result =>
    intro x y hp hq
    rw [← byte_add_eq_ofNat]
    exact binaryOp_resultIn addResult hp hq

/-- Settles O5: SUB writes the wrapped difference with the borrow, behind the two register checks. -/
theorem subWrapsAndSetsFlags : Obligations.SubWrapsAndSetsFlags := by
  intro p q s
  refine ⟨?result, raisesRegReg_of_operandFault rfl, decode_encode (.sub p q)⟩
  case result =>
    intro x y hp hq
    dsimp only
    rw [← byte_sub_eq_ofNat, ← decide_toNat_lt_eq_decide_sub_neg]
    exact binaryOp_resultIn subResult hp hq

/-- Settles O6: INC adds the byte 1, and its conditions compare the old byte with 255 and 127. -/
theorem incAddsOne : Obligations.IncAddsOne := by
  intro p k s
  refine ⟨?result, raises_of_operandFault rfl, decode_encode (.inc p k)⟩
  case result =>
    intro x hp
    have hvalue : BitVec.ofNat 8 ((x.toNat + 1) % 256) = x + 1 := (byte_add_eq_ofNat x 1).symm
    have hcarry : decide (x.toNat = 255) = (x == 255) := (beq_eq_decide_toNat x 255).symm
    have hoverflow : decide (x.toNat = 127) = (x == 127) := (beq_eq_decide_toNat x 127).symm
    rw [hvalue, hcarry, hoverflow]
    exact unaryOp_resultIn incResult hp

/-- Settles O7: DEC subtracts the byte 1, and its conditions compare the old byte with 0 and 128. -/
theorem decSubtractsOne : Obligations.DecSubtractsOne := by
  intro p k s
  refine ⟨?result, raises_of_operandFault rfl, decode_encode (.dec p k)⟩
  case result =>
    intro x hp
    have hvalue : BitVec.ofNat 8 (((x.toNat : Int) - 1) % 256).toNat = x - 1 := (byte_sub_eq_ofNat x 1).symm
    have hcarry : decide (x.toNat = 0) = (x == 0) := (beq_eq_decide_toNat x 0).symm
    have hoverflow : decide (x.toNat = 128) = (x == 128) := (beq_eq_decide_toNat x 128).symm
    rw [hvalue, hcarry, hoverflow]
    exact unaryOp_resultIn decResult hp

end Sys2Proof.Machine

/-! PROOFS. AND, OR, XOR, NOT, SHL and SHR (spec/43_logic_shift.md R110 to R115): what each leaves, raises and is encoded
as. -/

namespace Sys2Proof.Machine

section BitwiseForm

/-! ### A plain result whose bits are each derived from the operands' bits in the same place -/

variable {p q x y r : Byte} {s : State} {f : Byte → Byte → AluResult} {bit : Bool → Bool → Bool}

theorem binaryOp_bitwise (hp : s.reg? p.toNat = some x) (hq : s.reg? q.toNat = some y) (hplain : f x y = plainResult r)
    (hbit : ∀ k, r.getLsbD k = bit (x.getLsbD k) (y.getLsbD k)) :
    ∃ t r, binaryOp f p q s = .next t ∧ ResultIn s t p.toNat r false false ∧
      ∀ k, k < 8 → r.getLsbD k = bit (x.getLsbD k) (y.getLsbD k) := by
  obtain ⟨t, hexec, hresult⟩ := binaryOp_resultIn f hp hq
  rw [hplain] at hresult
  exact ⟨t, r, hexec, hresult, fun k _ => hbit k⟩

end BitwiseForm

section BitsAsNumbers

/-! ### The complement and the shifts by one as arithmetic on numbers (43_logic_shift.md) -/

variable (x : Byte)

theorem byte_xor_ones_eq_ofNat : x ^^^ 0xFF = BitVec.ofNat 8 (255 - x.toNat) := by
  have hnot : x ^^^ 0xFF = ~~~x := BitVec.xor_allOnes
  apply BitVec.eq_of_toNat_eq
  rw [hnot, BitVec.toNat_not, BitVec.toNat_ofNat]
  omega

theorem byte_shiftLeft_one_eq_ofNat : x <<< 1 = BitVec.ofNat 8 (x.toNat * 2 % 256) := by
  apply BitVec.eq_of_toNat_eq
  simp [Nat.shiftLeft_eq]

theorem byte_ushiftRight_one_eq_ofNat : x >>> 1 = BitVec.ofNat 8 (x.toNat / 2) := by
  have hx := x.isLt
  apply BitVec.eq_of_toNat_eq
  rw [BitVec.toNat_ushiftRight, Nat.shiftRight_eq_div_pow, BitVec.toNat_ofNat]
  omega

/-- The bit shifted in from above is 0. -/
theorem byte_ushiftRight_one_high_bit : (x >>> 1).getLsbD 7 = false := by simp

end BitsAsNumbers

/-- Settles O8: AND writes the plain bitwise conjunction, behind the two register checks. -/
theorem andActsBitwise : Obligations.AndActsBitwise := by
  intro p q s
  refine ⟨?result, raisesRegReg_of_operandFault rfl, decode_encode (.and p q)⟩
  case result =>
    intro x y hp hq
    exact binaryOp_bitwise (f := andResult) hp hq rfl fun _ => BitVec.getLsbD_and

/-- Settles O9: OR writes the plain bitwise disjunction, behind the two register checks. -/
theorem orActsBitwise : Obligations.OrActsBitwise := by
  intro p q s
  refine ⟨?result, raisesRegReg_of_operandFault rfl, decode_encode (.or p q)⟩
  case result =>
    intro x y hp hq
    exact binaryOp_bitwise (f := orResult) hp hq rfl fun _ => BitVec.getLsbD_or

/-- Settles O10: XOR writes the plain bitwise difference, behind the two register checks. -/
theorem xorActsBitwise : Obligations.XorActsBitwise := by
  intro p q s
  refine ⟨?result, raisesRegReg_of_operandFault rfl, decode_encode (.xor p q)⟩
  case result =>
    intro x y hp hq
    exact binaryOp_bitwise (f := xorResult) hp hq rfl fun _ => BitVec.getLsbD_xor

/-- Settles O11: NOT writes the exclusive or with eight ones, which is the difference from 255. -/
theorem notComplements : Obligations.NotComplements := by
  intro p k s
  refine ⟨?result, raises_of_operandFault rfl, decode_encode (.not p k)⟩
  case result =>
    intro x hp
    rw [← byte_xor_ones_eq_ofNat]
    exact unaryOp_resultIn notResult hp

/-- Settles O12: SHL writes the byte shifted by one, with the bit shifted out as Carry. -/
theorem shlDoubles : Obligations.ShlDoubles := by
  intro p k s
  refine ⟨?result, raises_of_operandFault rfl, decode_encode (.shl p k)⟩
  case result =>
    intro x hp
    rw [← byte_shiftLeft_one_eq_ofNat]
    exact unaryOp_resultIn shlResult hp

/-- Settles O13: SHR writes the byte shifted by one, whose high bit, the Negative flag, is clear. -/
theorem shrHalves : Obligations.ShrHalves := by
  intro p k s
  refine ⟨?result, raises_of_operandFault rfl, decode_encode (.shr p k)⟩
  case result =>
    intro x hp
    rw [← byte_ushiftRight_one_eq_ofNat]
    obtain ⟨t, hexec, hresult⟩ := unaryOp_resultIn shrResult hp
    have hnegative : t.flagN = false := hresult.negative.trans (byte_ushiftRight_one_high_bit x)
    exact ⟨t, hexec, hnegative, hresult⟩

end Sys2Proof.Machine

/-! PROOFS. JMP, JZ, JNZ and HALT (spec/44_control.md R120 to R124): what each leaves and is encoded as. -/

namespace Sys2Proof.Machine

section Jumps

/-! ### A jump, taken and not taken -/

variable {i : Instr} {h l : Byte} {s : State}

theorem State.onlyPc_setPc (v : Word) : OnlyPc s (s.setPc v) :=
  ⟨fun _ => rfl, fun _ => rfl, rfl, ⟨rfl, rfl, rfl, rfl, rfl, rfl⟩⟩

/-- A jump that is taken: `PC` is the number of the target, and nothing else changes. -/
theorem jumps_of_exec_eq_setPc (hexec : exec i s = .next (s.setPc (jumpTarget h l))) :
    ∃ t, exec i s = .next t ∧ t.pc.toNat = h.toNat * 256 + l.toNat ∧ OnlyPc s t :=
  ⟨_, hexec, jumpTarget_toNat h l, State.onlyPc_setPc _⟩

theorem exec_jz_of_zero (hz : s.flagZ = true) : exec (.jz h l) s = .next (s.setPc (jumpTarget h l)) := by
  simp [exec, execJz, hz]

theorem exec_jz_of_nonzero (hz : s.flagZ = false) : exec (.jz h l) s = .next s := by simp [exec, execJz, hz]

theorem exec_jnz_of_nonzero (hz : s.flagZ = false) : exec (.jnz h l) s = .next (s.setPc (jumpTarget h l)) := by
  simp [exec, execJnz, hz]

theorem exec_jnz_of_zero (hz : s.flagZ = true) : exec (.jnz h l) s = .next s := by simp [exec, execJnz, hz]

end Jumps

/-- Settles O41: the case split over where `PC` goes, with the target as a number. -/
theorem onlyJumpsWritePc : Obligations.OnlyJumpsWritePc := by
  intro i s
  obtain ⟨t, hexec⟩ := exec_next i s
  refine ⟨t, hexec, ?_⟩
  rcases exec_pc_cases hexec with hstay | ⟨h, l, hjump, htarget⟩
  · exact .inl hstay
  · have hpc : t.pc.toNat = h.toNat * 256 + l.toNat := by rw [htarget, jumpTarget_toNat]
    exact .inr ⟨h, l, hpc, hjump⟩

/-- Settles O14: JMP is always taken. -/
theorem jmpSetsPc : Obligations.JmpSetsPc := by
  intro h l s
  have hexec : exec (.jmp h l) s = .next (s.setPc (jumpTarget h l)) := rfl
  exact ⟨jumps_of_exec_eq_setPc hexec, decode_encode (.jmp h l)⟩

/-- Settles O15: JZ is taken with Z set and answers the same state with Z clear. -/
theorem jzJumpsOnZero : Obligations.JzJumpsOnZero := by
  intro h l s
  refine ⟨?taken, ?notTaken, decode_encode (.jz h l)⟩
  case taken => exact fun hz => jumps_of_exec_eq_setPc (exec_jz_of_zero hz)
  case notTaken => exact exec_jz_of_nonzero

/-- Settles O16: JNZ is taken with Z clear and answers the same state with Z set. -/
theorem jnzJumpsOnNonzero : Obligations.JnzJumpsOnNonzero := by
  intro h l s
  refine ⟨?taken, ?notTaken, decode_encode (.jnz h l)⟩
  case taken => exact fun hz => jumps_of_exec_eq_setPc (exec_jnz_of_nonzero hz)
  case notTaken => exact exec_jnz_of_zero

/-- Settles O17: the effect of HALT looks at neither operand byte. -/
theorem haltSetsHalted : Obligations.HaltSetsHalted := by
  intro j k s
  have hexec : exec (.halt j k) s = .next s.halt := rfl
  exact ⟨hexec, decode_encode (.halt j k)⟩

end Sys2Proof.Machine

/-! PROOFS. The run loop (spec/45_run_loop.md R131 to R136): what a step of a running engine fetches, where it leaves `PC`,
when it halts, and a run that never ends. -/

namespace Sys2Proof

/-- Where `PC` is after an instruction that began with Zero flag `z` and `PC` = `pc` (44_control.md R120 to R124). -/
def Instr.pcAfter (z : Bool) (pc : Nat) : Instr → Nat
  | .jmp h l => h.toNat * 256 + l.toNat
  | .jz h l => if z then h.toNat * 256 + l.toNat else pc
  | .jnz h l => if z then pc else h.toNat * 256 + l.toNat
  | _ => pc

theorem Instr.mnemonic_eq_halt_iff {i : Instr} : i.mnemonic = .HALT ↔ ∃ j k, i = .halt j k := by
  cases i <;> simp [Instr.mnemonic]

end Sys2Proof

namespace Sys2Proof.Machine

section RunningStep

/-! ### A step of a running engine, by what its fetch finds -/

variable {s : State} {o a b : Byte}

theorem step_of_noByte (hrun : s.Running) (hp : s.M ≤ s.pc.toNat) : step s = .next s.halt := by
  rcases fetch_cases s with ⟨-, hfetch⟩ | ⟨hlt, -⟩ | ⟨hlt, -⟩
  · rw [step, runLoopStep_running hrun, runIterationWith, hfetch]
  all_goals omega

theorem step_of_partialFetch (hrun : s.Running) (hp : s.pc.toNat < s.M) (hp2 : s.M ≤ s.pc.toNat + 2) :
    step s = .next { s with halted := true, pc := BitVec.ofNat 16 (s.pc.toNat + 1) } := by
  rcases fetch_cases s with ⟨hle, -⟩ | ⟨-, -, hfetch⟩ | ⟨hlt, -⟩
  · omega
  · rw [step, runLoopStep_running hrun, runIterationWith, hfetch, advancePc_eq]
    rfl
  · omega

theorem step_of_fullFetch (hrun : s.Running) (ho : s.mem? s.pc.toNat = some o)
    (ha : s.mem? (s.pc.toNat + 1) = some a) (hb : s.mem? (s.pc.toNat + 2) = some b) :
    step s = executeOne o a b { s with pc := BitVec.ofNat 16 (s.pc.toNat + 3) } := by
  rw [step, runLoopStep_of_mem? hrun ho ha hb, advancePc_eq, executeOne]

theorem State.lt_M_of_mem? {n : Nat} (h : s.mem? n = some b) : n < s.M := (s.mem?_eq_some_iff.mp h).1

theorem State.exists_mem? {n : Nat} (h : n < s.M) : ∃ v, s.mem? n = some v := ⟨_, s.mem?_eq_some_iff.mpr ⟨h, rfl⟩⟩

/-- A cell that exists is below 256, so `PC` moves past the fetched bytes without wrapping (10_state.md R14). -/
theorem pc_add_three_toNat (hb : s.mem? (s.pc.toNat + 2) = some b) :
    (BitVec.ofNat 16 (s.pc.toNat + 3)).toNat = s.pc.toNat + 3 := by
  have hroom : s.pc.toNat + 2 < s.M := State.lt_M_of_mem? hb
  have hbyte : s.M < 256 := s.memSize.isLt
  exact Nat.mod_eq_of_lt (by omega)

end RunningStep

/-- Settles O24: the full fetch, then `ExecuteOne` of bytes that decode. -/
theorem stepRunsDecodedInstruction : Obligations.StepRunsDecodedInstruction := by
  intro s o a b i hrun ho ha hb hdec
  rw [step_of_fullFetch hrun ho ha hb, executeOne, executeOneWith_of_decode hdec, recordIr_eq]

section ExecuteOneOfThreeBytes

/-! ### `ExecuteOne` by what its three bytes decode to: where it leaves `PC`, and when it halts -/

variable {i : Instr} {o a b : Byte} {s t : State}

/-- Three bytes are an instruction, which runs, or an unknown opcode, which halts. -/
theorem executeOne_cases_decode (o a b : Byte) (s : State) :
    (∃ i, decode [o, a, b] = .instr i [] ∧ executeOne o a b s = exec i (s.recordIr o a)) ∨
    (decode [o, a, b] = .unknownOpcode o a b [] ∧ executeOne o a b s = .next (s.recordIr o a).halt) := by
  rcases executeOneWith_cases opcodeTable o a b s with ⟨m, hlookup, hexec⟩ | ⟨hlookup, hexec⟩
  · exact .inl ⟨instrOf m a b, by simp [decode, decodeWith, hlookup], hexec⟩
  · exact .inr ⟨by simp [decode, decodeWith, hlookup], hexec⟩

theorem exec_pc_toNat (hexec : exec i s = .next t) : t.pc.toNat = i.pcAfter s.flagZ s.pc.toNat := by
  cases i
  case jmp =>
    cases hexec
    exact jumpTarget_toNat _ _
  case jz | jnz =>
    cases hexec
    cases s.flagZ <;> simp [Instr.pcAfter, jumpTarget_toNat]
  all_goals
    rcases exec_pc_cases hexec with hstay | ⟨_, _, hjump, -⟩
    · exact congrArg BitVec.toNat hstay
    · simp at hjump

/-- Only HALT halts. -/
theorem exec_halted_iff (hexec : exec i s = .next t) (hs : s.halted = false) :
    t.halted = true ↔ ∃ j k, i = .halt j k := by
  obtain ⟨u, -, hu⟩ := exec_withHalted i s
  have hsame : exec i s = .next { u with halted := false || decide (i.mnemonic = .HALT) } := hs ▸ hu false
  rw [hexec] at hsame
  cases hsame
  simp [Instr.mnemonic_eq_halt_iff]

theorem executeOne_halted_iff (hexec : executeOne o a b s = .next t) (hs : s.halted = false) :
    t.halted = true ↔
      (∃ j k, decode [o, a, b] = .instr (.halt j k) []) ∨ decode [o, a, b] = .unknownOpcode o a b [] := by
  rcases executeOne_cases_decode o a b s with ⟨i, hdec, he⟩ | ⟨hdec, he⟩ <;> rw [he] at hexec
  · simpa [hdec] using exec_halted_iff hexec hs
  · cases hexec
    simp [hdec]

/-- Halting changes nothing but `IR` and `halted`. -/
theorem executeOne_of_halted (hexec : executeOne o a b s = .next t) (hs : s.halted = false) (ht : t.halted = true) :
    t = (s.recordIr o a).halt := by
  rcases executeOne_cases_decode o a b s with ⟨i, -, he⟩ | ⟨-, he⟩ <;> rw [he] at hexec
  · obtain ⟨j, k, rfl⟩ := (exec_halted_iff hexec hs).mp ht
    cases hexec
    rfl
  · cases hexec
    rfl

theorem executeOne_next (o a b : Byte) (s : State) : ∃ t, executeOne o a b s = .next t := by
  rcases executeOne_cases_decode o a b s with ⟨i, -, he⟩ | ⟨-, he⟩
  · exact he ▸ exec_next i _
  · exact ⟨_, he⟩

end ExecuteOneOfThreeBytes

/-- Settles O26: the full fetch, then an instruction, which decides where `PC` goes, or an unknown opcode. -/
theorem fullFetchThenExecutes : Obligations.FullFetchThenExecutes := by
  intro s o a b hrun ho ha hb
  have hstep := step_of_fullFetch hrun ho ha hb
  have hpc := pc_add_three_toNat hb
  refine ⟨hstep, ?_⟩
  rw [hstep]
  rcases executeOne_cases_decode o a b { s with pc := BitVec.ofNat 16 (s.pc.toNat + 3) } with
    ⟨i, hdec, he⟩ | ⟨hdec, he⟩ <;> rw [hdec, he]
  · obtain ⟨t, hexec⟩ := exec_next i (State.recordIr { s with pc := BitVec.ofNat 16 (s.pc.toNat + 3) } o a)
    have hnext : t.pc.toNat = i.pcAfter s.flagZ (s.pc.toNat + 3) := hpc ▸ exec_pc_toNat hexec
    exact ⟨t, hexec, hnext.trans (by cases i <;> rfl)⟩
  · exact ⟨_, rfl, hpc⟩

/-- Settles O29: the case split over the three fetches; a full fetch halts by what its bytes decode to. -/
theorem haltsOnExactlyThreeEvents : Obligations.HaltsOnExactlyThreeEvents := by
  intro s hrun p
  rcases fetch_cases s with ⟨hp, -⟩ | ⟨hp, hp2, -⟩ | ⟨hroom, -⟩
  case inl =>
    have hp2 : s.M ≤ p + 2 := Nat.le_add_right_of_le hp
    refine ⟨_, step_of_noByte hrun hp, iff_of_true rfl (.inr (.inr hp2)), ?_, fun hlt => ?_, fun _ => rfl⟩
    · exact fun _ o a b _ _ hb => absurd (State.lt_M_of_mem? hb) hp2.not_gt
    · exact absurd hlt hp.not_gt
  case inr.inl =>
    refine ⟨_, step_of_partialFetch hrun hp hp2, iff_of_true rfl (.inr (.inr hp2)), ?_, fun _ _ => rfl, fun hle => ?_⟩
    · exact fun _ o a b _ _ hb => absurd (State.lt_M_of_mem? hb) hp2.not_gt
    · exact absurd hp hle.not_gt
  case inr.inr =>
    obtain ⟨o, ho⟩ : ∃ o, s.mem? p = some o := State.exists_mem? (by omega)
    obtain ⟨a, ha⟩ : ∃ a, s.mem? (p + 1) = some a := State.exists_mem? (by omega)
    obtain ⟨b, hb⟩ : ∃ b, s.mem? (p + 2) = some b := State.exists_mem? hroom
    obtain ⟨t, hexec⟩ := executeOne_next o a b { s with pc := BitVec.ofNat 16 (p + 3) }
    refine ⟨t, (step_of_fullFetch hrun ho ha hb).trans hexec, ?_, fun ht => ?_, fun _ hp2 => ?_, fun hp => ?_⟩
    · have hlong : ¬ s.M ≤ p + 2 := hroom.not_ge
      rw [executeOne_halted_iff hexec hrun.1]
      simp [ho, ha, hb, hlong]
    · simp only [ho, ha, hb, Option.some.injEq]
      rintro _ _ _ rfl rfl rfl
      rw [executeOne_of_halted hexec hrun.1 ht, recordIr_eq]
      rfl
    · exact absurd hroom hp2.not_gt
    · omega

section EndlessLoop

/-! ### A run that never ends -/

variable {s u : State}

/-- From a running state that steps to itself the run reaches no other state, hence no end. -/
theorem not_runEnds_of_step_self (hrun : s.Running) (hself : step s = .next s) : ¬ RunEnds s u := by
  intro hends
  have hkeeps (x y : State) (hx : x = s) (hy : step x = .next y) : y = s := by
    rw [hx, hself] at hy
    cases hy
    rfl
  have hu : u = s := runEnds_keeps hkeeps hends rfl
  exact runEnds_not_running hends (hu ▸ hrun)

/-- A JMP to its own address only records itself in `IR`. -/
theorem step_of_jmp_self {o h l : Byte} (hrun : s.Running) (ho : s.mem? s.pc.toNat = some o)
    (hh : s.mem? (s.pc.toNat + 1) = some h) (hl : s.mem? (s.pc.toNat + 2) = some l)
    (hdec : decode [o, h, l] = .instr (.jmp h l) []) (htarget : h.toNat * 256 + l.toNat = s.pc.toNat) :
    step s = .next (s.recordIr o h) := by
  have hpc : jumpTarget h l = s.pc := BitVec.eq_of_toNat_eq ((jumpTarget_toNat h l).trans htarget)
  rw [step_of_fullFetch hrun ho hh hl, executeOne, executeOneWith_of_decode hdec, exec, execJmp, hpc]
  rfl

end EndlessLoop

/-- Settles O32: the first step records the JMP in `IR`; recording it again changes nothing. -/
theorem jmpToItselfNeverEnds : Obligations.JmpToItselfNeverEnds := by
  intro s o h l hrun ho hh hl hdec htarget
  have hfirst : step s = .next (s.recordIr o h) := step_of_jmp_self hrun ho hh hl hdec htarget
  have hself : step (s.recordIr o h) = .next (s.recordIr o h) :=
    step_of_jmp_self (s := s.recordIr o h) hrun ho hh hl hdec htarget
  refine ⟨⟨_, hfirst, hrun, hself⟩, fun u hends => ?_⟩
  exact not_runEnds_of_step_self (s := s.recordIr o h) hrun hself ((runEnds_of_step hrun hfirst).mp hends)

end Sys2Proof.Machine

/-! PROOFS. The `OutOfBounds` exception (spec/60_exceptions.md R151): what latches a fault and what never does. -/

namespace Sys2Proof.Machine

section FaultLatching

/-! ### Effects leave the latch alone; only a failed operand check writes it -/

variable {i : Instr} {s t : State}

@[simp] theorem effectOf_fault (i : Instr) (s : State) : (effectOf i s).fault = s.fault := by
  rcases effectOf_cases i s with ⟨d, r, -, he⟩ | ⟨r, a, -, he⟩ | ⟨h, l, -, he⟩ | ⟨h, l, -, he⟩ | ⟨j, k, -, he⟩ <;> rw [he]
  · exact writeResult_fault d r s
  · exact State.writeMem_fault s a.toNat (s.reg r)
  · exact State.setPc_fault s (jumpTarget h l)
  · exact State.halt_fault s

/-- An instruction that starts with an empty latch fills it exactly when an operand names no register or no cell. -/
theorem exec_fault_ne_none_iff (hs : s.fault = .none) (hexec : exec i s = .next t) :
    t.fault ≠ .none ↔ i.wellFormed s.N s.M = false := by
  rw [← Bool.not_eq_true, ← operandFault_eq_none]
  cases hop : operandFault i s with
  | none =>
    rw [exec_of_passes hop] at hexec
    cases hexec
    simp [hs]
  | some f =>
    rw [exec_of_fails hop] at hexec
    cases hexec
    simp [hs, operandFault_ne_none hop]

/-- A fetch that does not find three bytes halts and latches nothing (20_memory.md R34). -/
theorem step_fault_of_incomplete_fetch (hrun : s.Running) (hp : s.M ≤ s.pc.toNat + 2) :
    ∃ t, step s = .next t ∧ t.fault = .none := by
  rcases Nat.lt_or_ge s.pc.toNat s.M with hbyte | hbyte
  · exact ⟨_, step_of_partialFetch hrun hbyte hp, hrun.2⟩
  · exact ⟨_, step_of_noByte hrun hbyte, hrun.2⟩

end FaultLatching

/-- Settles O35: an instruction's latch by its operand checks, the rows without a check, the unknown opcode's implicit halt
and the fetches that find fewer than three bytes. -/
theorem outOfBoundsExactlyOnBadOperands : Obligations.OutOfBoundsExactlyOnBadOperands := by
  refine ⟨?instruction, ?jumpsAndHalt, ?unknown, ?fetch⟩
  case instruction =>
    intro i s hs
    obtain ⟨t, hexec⟩ := exec_next i s
    exact ⟨t, hexec, exec_fault_ne_none_iff hs hexec⟩
  case jumpsAndHalt => exact fun _ _ _ _ => ⟨rfl, rfl, rfl, rfl⟩
  case unknown => exact fun opc o a b s hun => ⟨_, executeOneWith_of_unknown hun a b s, rfl⟩
  case fetch => exact fun s hrun hp => step_fault_of_incomplete_fetch hrun hp

end Sys2Proof.Machine

/-! PROOFS. The spec's opcode map on every byte (spec/30_encoding.md R52, R54, R58; decision D1). -/

namespace Sys2Proof.Machine

section OpcodeBytes

/-! ### The bytes that the spec's opcode map uses -/

/-- The spec's map numbers the rows in their order from 0 on. -/
theorem map_opcodeTable_allMnemonics : allMnemonics.map opcodeTable = (List.range 17).map (BitVec.ofNat 8) := by decide

theorem exists_opcodeTable_eq_iff {o : Byte} : (∃ m, opcodeTable m = o) ↔ o.toNat ≤ 0x10 := by
  have hrows : (∃ m, opcodeTable m = o) ↔ o ∈ allMnemonics.map opcodeTable := by simp [mem_allMnemonics]
  rw [hrows, map_opcodeTable_allMnemonics]
  simp only [List.mem_map, List.mem_range]
  constructor
  · rintro ⟨k, hk, rfl⟩
    rw [BitVec.toNat_ofNat]
    omega
  · intro ho
    exact ⟨o.toNat, by omega, by simp⟩

@[simp] theorem instrOf_op1 (m : Mnemonic) (a b : Byte) : (instrOf m a b).op1 = a := by cases m <;> rfl

@[simp] theorem instrOf_op2 (m : Mnemonic) (a b : Byte) : (instrOf m a b).op2 = b := by cases m <;> rfl

theorem encodeWith_instrOf (opc : OpcodeMap) (m : Mnemonic) (a b : Byte) :
    encodeWith opc (instrOf m a b) = [opc m, a, b] := by
  simp [encodeWith]

theorem decodeWith_eq_unknownOpcode {opc : OpcodeMap} {o : Byte} (h : ∀ m, opc m ≠ o) (a b : Byte) (rest : List Byte) :
    decodeWith opc (o :: a :: b :: rest) = .unknownOpcode o a b rest := by
  simp [decodeWith, lookupOpcode_none.mpr h]

end OpcodeBytes

/-- Settles O19: the bytes up to 0x10 are those of the rows, and a row takes the operand bytes as they are. -/
theorem everyThreeBytesDecode : Obligations.EveryThreeBytesDecode := by
  intro o a b rest
  refine ⟨?row, ?unknown⟩
  case row =>
    intro ho
    obtain ⟨m, rfl⟩ := exists_opcodeTable_eq_iff.mpr ho
    have hlookup : lookupOpcode opcodeTable (opcodeTable m) = some m := lookupOpcode_eq opcodeTable_injective m
    exact ⟨instrOf m a b, decodeWith_eq_instr_iff.mpr ⟨m, hlookup, rfl⟩, encodeWith_instrOf opcodeTable m a b⟩
  case unknown =>
    intro ho
    refine decodeWith_eq_unknownOpcode (fun m hm => ?_) a b rest
    exact absurd (exists_opcodeTable_eq_iff.mp ⟨m, hm⟩) ho.not_ge

/-- Settles O21: seven words are the encodings of their instructions; 0xFF is of no row, and two bytes are too few. -/
theorem sampleWordsDecode : Obligations.SampleWordsDecode :=
  ⟨decode_encode (.load 0 10), decode_encode (.store 2 20), decode_encode (.add 0 1), decode_encode (.dec 2 0),
    decode_encode (.shl 2 0), decode_encode (.jnz 0 9), decode_encode (.halt 42 8), by decide, rfl⟩

end Sys2Proof.Machine

/-! PROOFS. Fault entry (spec/60_exceptions.md section 2; decisions D8, D9), and halting against faulting (section 3). -/

namespace Sys2Proof.Machine

section FirstFailingOperand

/-! ### Which fault the operand checks raise -/

variable {i : Instr} {p q : Byte} {s : State} {f : FaultLatch}

theorem checkReg_eq_some (h : checkReg p s = some f) : s.N ≤ p.toNat ∧ f = .register p := by
  rcases Nat.lt_or_ge p.toNat s.N with hp | hp
  · simp [checkReg, regCheck_eq_none.mpr hp] at h
  · simp_all [checkReg, regCheck_fails hp]

theorem checkRegReg_eq_some (h : checkRegReg p q s = some f) :
    (s.N ≤ p.toNat ∧ f = .register p) ∨ (p.toNat < s.N ∧ s.N ≤ q.toNat ∧ f = .register q) := by
  obtain ⟨hfirst, hsecond⟩ := checkRegReg_fails (p := p) (q := q) (s := s)
  rcases Nat.lt_or_ge p.toNat s.N with hp | hp
  · rcases Nat.lt_or_ge q.toNat s.N with hq | hq
    · simp [checkRegReg_eq_none.mpr ⟨hp, hq⟩] at h
    · exact .inr ⟨hp, hq, Option.some.inj (h.symm.trans (hsecond hp hq))⟩
  · exact .inl ⟨hp, Option.some.inj (h.symm.trans (hfirst hp))⟩

theorem checkRegMem_eq_some (h : checkRegMem p q s = some f) :
    (s.N ≤ p.toNat ∧ f = .register p) ∨ (p.toNat < s.N ∧ s.M ≤ q.toNat ∧ f = .memory q) := by
  obtain ⟨hregister, haddress⟩ := checkRegMem_fails (p := p) (a := q) (s := s)
  rcases Nat.lt_or_ge p.toNat s.N with hp | hp
  · rcases Nat.lt_or_ge q.toNat s.M with hq | hq
    · simp [checkRegMem_eq_none.mpr ⟨hp, hq⟩] at h
    · exact .inr ⟨hp, hq, Option.some.inj (h.symm.trans (haddress hp hq))⟩
  · exact .inl ⟨hp, Option.some.inj (h.symm.trans (hregister hp))⟩

/-- The fault of an instruction, by the kind of its second operand (40_execute_dispatch.md R73, decision D9). -/
theorem operandFault_eq_some (h : operandFault i s = some f) :
    (s.N ≤ i.op1.toNat ∧ f = .register i.op1) ∨
    (i.op1.toNat < s.N ∧
      if i.mnemonic = .LOAD ∨ i.mnemonic = .STORE then s.M ≤ i.op2.toNat ∧ f = .memory i.op2
      else s.N ≤ i.op2.toNat ∧ f = .register i.op2) := by
  cases i
  case load | store => exact checkRegMem_eq_some h
  case move | add | sub | and | or | xor => exact checkRegReg_eq_some h
  case inc | dec | not | shl | shr => exact .inl (checkReg_eq_some h)
  case jmp | jz | jnz | halt => cases h

theorem exists_operandFault (h : i.wellFormed s.N s.M = false) : ∃ f, operandFault i s = some f := by
  rw [← Option.ne_none_iff_exists', Ne, operandFault_eq_none]
  simp [h]

end FirstFailingOperand

/-- Settles O36: the failed check raises, and its fault's cause and index are those of the first failing operand. -/
theorem faultEntryIsPrecise : Obligations.FaultEntryIsPrecise := by
  intro i s hwf
  obtain ⟨f, hf⟩ := exists_operandFault hwf
  have hraise := exec_of_fails hf
  refine ⟨fun hnone => ⟨f, by rw [hraise, if_pos hnone], ?_⟩, fun hlatched => by rw [hraise, if_neg hlatched]⟩
  rcases operandFault_eq_some hf with ⟨hp, rfl⟩ | ⟨hp, hq⟩
  · exact .inl ⟨hp, rfl, rfl⟩
  · refine .inr ⟨hp, ?_⟩
    by_cases hmem : i.mnemonic = .LOAD ∨ i.mnemonic = .STORE
    · rw [if_pos hmem] at hq ⊢
      obtain ⟨hq, rfl⟩ := hq
      exact ⟨rfl, hq, rfl⟩
    · rw [if_neg hmem] at hq ⊢
      obtain ⟨hq, rfl⟩ := hq
      exact ⟨rfl, hq, rfl⟩

section RunningStepCases

/-! ### What a step of a running engine can do -/

variable {s t : State}

/-- A running engine has a next state: it fetches nothing, fetches only a part, or executes the three bytes at `PC`. -/
theorem step_running_cases (hrun : s.Running) :
    (s.M ≤ s.pc.toNat ∧ step s = .next s.halt) ∨
    (s.pc.toNat < s.M ∧ s.M ≤ s.pc.toNat + 2 ∧
      step s = .next { s with halted := true, pc := BitVec.ofNat 16 (s.pc.toNat + 1) }) ∨
    (∃ o a b t, s.mem? s.pc.toNat = some o ∧ s.mem? (s.pc.toNat + 1) = some a ∧ s.mem? (s.pc.toNat + 2) = some b ∧
      step s = .next t ∧ executeOne o a b { s with pc := BitVec.ofNat 16 (s.pc.toNat + 3) } = .next t) := by
  rcases fetch_cases s with ⟨hp, -⟩ | ⟨hp, hp2, -⟩ | ⟨hroom, -⟩
  · exact .inl ⟨hp, step_of_noByte hrun hp⟩
  · exact .inr (.inl ⟨hp, hp2, step_of_partialFetch hrun hp hp2⟩)
  · obtain ⟨o, ho⟩ : ∃ o, s.mem? s.pc.toNat = some o := State.exists_mem? (by omega)
    obtain ⟨a, ha⟩ : ∃ a, s.mem? (s.pc.toNat + 1) = some a := State.exists_mem? (by omega)
    obtain ⟨b, hb⟩ : ∃ b, s.mem? (s.pc.toNat + 2) = some b := State.exists_mem? hroom
    obtain ⟨t, hexec⟩ := executeOne_next o a b { s with pc := BitVec.ofNat 16 (s.pc.toNat + 3) }
    exact .inr (.inr ⟨o, a, b, t, ho, ha, hb, (step_of_fullFetch hrun ho ha hb).trans hexec, hexec⟩)

theorem step_next_of_running (hrun : s.Running) : ∃ t, step s = .next t := by
  rcases step_running_cases hrun with ⟨-, hs⟩ | ⟨-, -, hs⟩ | ⟨_, _, _, t, -, -, -, hs, -⟩ <;> exact ⟨_, hs⟩

/-- An instruction that a running engine executes halts without a fault or leaves `halted` clear. -/
theorem executeOne_of_running {o a b : Byte} (hrun : s.Running) (hexec : executeOne o a b s = .next t) :
    t.Running ∨ t.Final ∨ (t.Faulted ∧ t.halted = false) := by
  cases hhalted : t.halted with
  | true =>
    have ht : t = (s.recordIr o a).halt := executeOne_of_halted hexec hrun.1 hhalted
    exact .inr (.inl ⟨hhalted, by rw [ht]; exact hrun.2⟩)
  | false =>
    by_cases hfault : t.fault = .none
    · exact .inl ⟨hhalted, hfault⟩
    · exact .inr (.inr ⟨hfault, rfl⟩)

end RunningStepCases

/-- Settles O34: a fetch that finds fewer than three bytes halts only, and an instruction does not both. -/
theorem haltAndFaultNeverTogether : Obligations.HaltAndFaultNeverTogether := by
  intro s hrun
  rcases step_running_cases hrun with ⟨-, hs⟩ | ⟨-, -, hs⟩ | ⟨o, a, b, t, -, -, -, hs, hexec⟩
  · exact ⟨_, hs, .inr (.inl ⟨rfl, hrun.2⟩)⟩
  · exact ⟨_, hs, .inr (.inl ⟨rfl, hrun.2⟩)⟩
  · exact ⟨t, hs, executeOne_of_running (s := { s with pc := BitVec.ofNat 16 (s.pc.toNat + 3) }) hrun hexec⟩

end Sys2Proof.Machine

/-! PROOFS. `IR` and `SP` (spec/10_state.md sections 5 and 7): no instruction reads them, and none writes `SP`. -/

namespace Sys2Proof.Machine

section IrAndSp

/-! ### Running an instruction with another `IR` and another `SP` -/

variable {i : Instr} {s : State}

@[simp] theorem State.withIrSp_flagZ (v : Word) (w : Byte) : { s with ir := v, sp := w }.flagZ = s.flagZ := rfl

@[simp] theorem operandFault_withIrSp (i : Instr) (v : Word) (w : Byte) :
    operandFault i { s with ir := v, sp := w } = operandFault i s :=
  operandFault_congr i rfl rfl

/-- The effects carry both along; the conditional jumps decide on Z. -/
theorem effectOf_withIrSp (i : Instr) (s : State) (v : Word) (w : Byte) :
    effectOf i { s with ir := v, sp := w } = { effectOf i s with ir := v, sp := w } := by
  cases i
  case jz | jnz =>
    cases hz : s.flagZ <;> simp only [effectOf, State.withIrSp_flagZ, hz] <;> rfl
  all_goals rfl

theorem effectOf_sp_and_ir (i : Instr) (s : State) : (effectOf i s).sp = s.sp ∧ (effectOf i s).ir = s.ir := by
  rcases effectOf_cases i s with ⟨d, r, -, he⟩ | ⟨r, a, -, he⟩ | ⟨h, l, -, he⟩ | ⟨h, l, -, he⟩ | ⟨j, k, -, he⟩
  all_goals
    rw [he]
    exact ⟨rfl, rfl⟩

/-- Any instruction, whether it raises or not, carries both along and looks at neither. -/
theorem exec_withIrSp (i : Instr) (s : State) (v : Word) (w : Byte) :
    ∃ t, exec i s = .next t ∧ t.sp = s.sp ∧ t.ir = s.ir ∧
      exec i { s with ir := v, sp := w } = .next { t with ir := v, sp := w } := by
  cases hop : operandFault i s with
  | none =>
    obtain ⟨hsp, hir⟩ := effectOf_sp_and_ir i s
    refine ⟨effectOf i s, exec_of_passes hop, hsp, hir, ?_⟩
    rw [exec_of_passes ((operandFault_withIrSp i v w).trans hop), effectOf_withIrSp]
  | some f => exact ⟨_, exec_of_fails hop, rfl, rfl, exec_of_fails ((operandFault_withIrSp i v w).trans hop)⟩

/-- `ExecuteOne` writes `IR` before it runs the instruction, so the old one is gone. -/
theorem executeOne_withIrSp (o a b : Byte) (s : State) (v : Word) (w : Byte) :
    ∃ t, executeOne o a b s = .next t ∧ t.sp = s.sp ∧
      executeOne o a b { s with ir := v, sp := w } = .next { t with ir := o ++ a, sp := w } := by
  rcases executeOneWith_cases opcodeTable o a b s with ⟨m, hlookup, he⟩ | ⟨hlookup, he⟩
  · obtain ⟨t, hexec, hsp, -, hother⟩ := exec_withIrSp (instrOf m a b) (s.recordIr o a) (o ++ a) w
    have hdec : decodeWith opcodeTable [o, a, b] = .instr (instrOf m a b) [] :=
      decodeWith_eq_instr_iff.mpr ⟨m, hlookup, rfl⟩
    exact ⟨t, he.trans hexec, hsp, (executeOneWith_of_decode hdec _).trans hother⟩
  · exact ⟨_, he, rfl, executeOneWith_of_unknown (lookupOpcode_none.mp hlookup) a b _⟩

/-- A fetch reads memory at `PC` only, and a step of a running engine executes what it finds. -/
theorem step_withIrSp (hrun : s.Running) (v : Word) (w : Byte) :
    ∃ t u, step s = .next t ∧ t.sp = s.sp ∧ step { s with ir := v, sp := w } = .next { t with ir := u, sp := w } := by
  have hrun' : { s with ir := v, sp := w }.Running := hrun
  rcases step_running_cases hrun with ⟨hp, hs⟩ | ⟨hp, hp2, hs⟩ | ⟨o, a, b, t, ho, ha, hb, hs, -⟩
  · exact ⟨_, v, hs, rfl, step_of_noByte hrun' hp⟩
  · exact ⟨_, v, hs, rfl, step_of_partialFetch hrun' hp hp2⟩
  · obtain ⟨t, hexec, hsp, hother⟩ := executeOne_withIrSp o a b { s with pc := BitVec.ofNat 16 (s.pc.toNat + 3) } v w
    exact ⟨t, o ++ a, (step_of_fullFetch hrun ho ha hb).trans hexec, hsp,
      (step_of_fullFetch hrun' ho ha hb).trans hother⟩

end IrAndSp

/-- Settles O40: an instruction carries `IR` and `SP` along, and a step runs it with `IR` newly written. -/
theorem irAndSpAreNeverRead : Obligations.IrAndSpAreNeverRead := by
  refine ⟨?instruction, ?step⟩
  case instruction => exact exec_withIrSp
  case step => exact fun s v w hrun => step_withIrSp hrun v w

end Sys2Proof.Machine

/-! PROOFS. The laws of ADD, SUB, INC and DEC that spec/40_execute_dispatch.md section 4 derives. -/

namespace Sys2Proof.Machine

section SignedRange

/-! ### The Overflow condition is the signed range -/

variable (x y : Byte)

theorem addResult_overflow_iff :
    (addResult x y).overflow = true ↔ x.toInt + y.toInt < -128 ∨ 127 < x.toInt + y.toInt := by
  have hsigned : (addResult x y).overflow = x.saddOverflow y := by
    rw [BitVec.saddOverflow_eq]
    rfl
  rw [hsigned, BitVec.saddOverflow, Bool.or_eq_true, decide_eq_true_iff, decide_eq_true_iff]
  omega

theorem subResult_overflow_iff :
    (subResult x y).overflow = true ↔ x.toInt - y.toInt < -128 ∨ 127 < x.toInt - y.toInt := by
  have hsigned : (subResult x y).overflow = x.ssubOverflow y := by
    rw [BitVec.ssubOverflow_eq]
    simp only [subResult, BitVec.msb_eq_getLsbD_last]
    cases x.getLsbD 7 <;> cases y.getLsbD 7 <;> simp
  rw [hsigned, BitVec.ssubOverflow, Bool.or_eq_true, decide_eq_true_iff, decide_eq_true_iff]
  omega

theorem incResult_eq_addResult_one : ∀ x : Byte, incResult x = addResult x 1 := by decide

theorem decResult_eq_subResult_one : ∀ x : Byte, decResult x = subResult x 1 := by decide

end SignedRange

/-- Settles O43: the results that ADD and SUB write, and INC and DEC as the same results with 1. -/
theorem overflowIsSignedRange : Obligations.OverflowIsSignedRange := by
  intro p q k s x y hp hq
  have hlt : p.toNat < s.N := s.lt_N_of_reg? hp
  have hadd : exec (.add p q) s = .next (writeResult p (addResult x y) s) := binaryOp_of_regs hp hq
  have hsub : exec (.sub p q) s = .next (writeResult p (subResult x y) s) := binaryOp_of_regs hp hq
  refine ⟨⟨_, hadd, ?addO⟩, ⟨_, hsub, ?subC, ?subO⟩, ?inc, ?dec⟩
  case addO => rw [(writeResult_resultIn hlt _).overflow, addResult_overflow_iff]
  case subC => rw [(writeResult_resultIn hlt _).carry, subResult, decide_eq_true_iff]
  case subO => rw [(writeResult_resultIn hlt _).overflow, subResult_overflow_iff]
  case inc =>
    rintro rfl
    refine ⟨_, ?_, hadd⟩
    rw [← incResult_eq_addResult_one]
    exact unaryOp_of_reg hp
  case dec =>
    rintro rfl
    refine ⟨_, ?_, hsub⟩
    rw [← decResult_eq_subResult_one]
    exact unaryOp_of_reg hp

end Sys2Proof.Machine

/-! PROOFS. A fetch after a store (spec/20_memory.md section 7), where `PC` goes (spec/10_state.md section 4), and the steps
that execute nothing (spec/45_run_loop.md R130, R132, R133). -/

namespace Sys2Proof.Machine

section StoreThenFetch

/-! ### A fetch after a store -/

variable {s : State}

theorem State.readMem_writeMem (n b : Nat) (v : Byte) : (s.writeMem n v).readMem b = if b = n then v else s.readMem b :=
  Memory.read_write s.mem n b v

/-- A full fetch reads the three bytes at `PC`. -/
theorem fetch_of_room (h : s.pc.toNat + 2 < s.M) :
    fetch s = .full (s.readMem s.pc.toNat) (s.readMem (s.pc.toNat + 1)) (s.readMem (s.pc.toNat + 2)) :=
  fetch_of_mem? (s.mem?_eq_some_iff.mpr ⟨by omega, rfl⟩) (s.mem?_eq_some_iff.mpr ⟨by omega, rfl⟩)
    (s.mem?_eq_some_iff.mpr ⟨h, rfl⟩)

end StoreThenFetch

/-- Settles O44: the fetch reads the memory that STORE wrote, byte by byte. -/
theorem storeIsSeenByFetch : Obligations.StoreIsSeenByFetch := by
  intro r a v s hr ha
  refine ⟨_, exec_store_of_reg hr ha, fun p hp => ?_⟩
  rw [fetch_of_room (s := { s.writeMem a.toNat v with pc := p }) hp]
  simp only [← State.readMem_writeMem]
  rfl

section WherePcGoes

/-! ### `PC` after an instruction and after `ExecuteOne` -/

/-- `PC` stays, or becomes what the two operand bytes spell. -/
theorem Instr.pcAfter_cases (i : Instr) (z : Bool) (pc : Nat) :
    i.pcAfter z pc = pc ∨ i.pcAfter z pc = i.op1.toNat * 256 + i.op2.toNat := by
  cases i
  case jmp => exact .inr rfl
  case jz | jnz => cases z <;> simp [Instr.pcAfter, Instr.op1, Instr.op2]
  all_goals exact .inl rfl

theorem executeOne_pc_cases {o a b : Byte} {s t : State} (hexec : executeOne o a b s = .next t) :
    t.pc.toNat = s.pc.toNat ∨ t.pc.toNat = a.toNat * 256 + b.toNat := by
  rcases executeOneWith_cases opcodeTable o a b s with ⟨m, -, he⟩ | ⟨-, he⟩ <;> rw [executeOne, he] at hexec
  · rw [exec_pc_toNat hexec]
    simpa using Instr.pcAfter_cases (instrOf m a b) s.flagZ s.pc.toNat
  · cases hexec
    exact .inl rfl

end WherePcGoes

/-- Settles O45: the case split over the three fetches; after a full one `PC` is past the bytes or what they spell. -/
theorem pcNeverWraps : Obligations.PcNeverWraps := by
  intro s hrun
  have hbyte : s.M < 256 := s.memSize.isLt
  rcases step_running_cases hrun with ⟨-, hs⟩ | ⟨hp, -, hs⟩ | ⟨o, a, b, t, -, ha, hb, hs, hexec⟩
  · exact ⟨_, hs, .inl rfl⟩
  · exact ⟨_, hs, .inr (.inl ⟨Nat.mod_eq_of_lt (by omega), hp⟩)⟩
  · have hroom : s.pc.toNat + 2 < s.M := State.lt_M_of_mem? hb
    refine ⟨t, hs, .inr (.inr ?_)⟩
    rcases executeOne_pc_cases hexec with hstay | htarget
    · have hpc : t.pc.toNat = s.pc.toNat + 3 := hstay.trans (pc_add_three_toNat hb)
      exact .inl ⟨hpc, by omega⟩
    · exact .inr ⟨a, b, ha, hb, htarget⟩

/-- Settles O27: the first of the three fetches. -/
theorem fetchPastEndHalts : Obligations.FetchPastEndHalts :=
  fun _ hrun hp => step_of_noByte hrun hp

/-- Settles O28: the second of the three fetches. -/
theorem partialFetchHalts : Obligations.PartialFetchHalts :=
  fun _ hrun hp hp2 => step_of_partialFetch hrun hp hp2

section StoppedEngine

/-! ### A step of a stopped engine -/

variable {s : State} {i a : Byte}

theorem step_of_final (h : s.Final) : step s = .next s := by
  obtain ⟨hhalted, hfault⟩ := h
  simp [step, runLoopStep, hhalted, hfault]

theorem step_of_register_fault (h : s.fault = .register i) : step s = .fault (.outOfBoundsRegister i) := by
  simp [step, runLoopStep, h]

theorem step_of_memory_fault (h : s.fault = .memory a) : step s = .fault (.outOfBoundsMemory a) := by
  simp [step, runLoopStep, h]

end StoppedEngine

/-- Settles O30: the test before an iteration, and a run that ends at once. -/
theorem stoppedEngineMakesNoIteration : Obligations.StoppedEngineMakesNoIteration :=
  fun _ => ⟨step_of_final, fun _ => step_of_register_fault, fun _ => step_of_memory_fault,
    fun hstopped _ => runEnds_of_stopped hstopped⟩

end Sys2Proof.Machine

/-! PROOFS. Reset (spec/10_state.md section 11, spec/70_reset_and_hazards.md section 1) and the host's operations
(spec/70_reset_and_hazards.md R181 to R187). -/

namespace Sys2Proof.Machine

/-- Settles O53: `State.reset` is the reset of one choice of parameters. -/
theorem resetSatisfiesInvariant : Obligations.ResetSatisfiesInvariant :=
  ⟨State.resetWith_inv resetParams, State.resetWith_inv⟩

section Reset

/-! ### The state after reset -/

variable (p : Params)

@[simp] theorem State.resetWith_N : (State.resetWith p).N = p.regCount.toNat := List.length_replicate

@[simp] theorem State.resetWith_M : (State.resetWith p).M = p.memSize.toNat := rfl

theorem State.resetWith_running : (State.resetWith p).Running := ⟨rfl, rfl⟩

theorem State.resetWith_reg? {i : Nat} (h : i < p.regCount.toNat) : (State.resetWith p).reg? i = some 0 := by
  simp [State.reg?, State.resetWith, h]

theorem State.resetWith_mem? {a : Nat} (h : a < p.memSize.toNat) : (State.resetWith p).mem? a = some 0 :=
  (State.mem?_eq_some_iff _).mpr ⟨h, rfl⟩

/-- `M - 1` on eight bits, so 0xFF for `M` = 0 (decision D4). -/
theorem State.resetWith_sp_toNat : (State.resetWith p).sp.toNat = (255 + p.memSize.toNat) % 256 :=
  BitVec.toNat_sub p.memSize 1

end Reset

/-- Settles O54: each register and each cell, and `SP` as a difference on eight bits. -/
theorem resetLeavesZeros : Obligations.ResetLeavesZeros := by
  intro p
  have hsp := State.resetWith_sp_toNat p
  have hsize : p.memSize.toNat < 256 := p.memSize.isLt
  exact ⟨State.resetWith_N p, State.resetWith_M p, fun _ hi => State.resetWith_reg? p hi,
    fun _ ha => State.resetWith_mem? p ha, rfl, rfl, rfl, rfl, rfl, fun _ => by omega, fun _ => by omega⟩

section KeptButByReset

/-! ### What only reset undoes: `halted`, a latched fault, `N` and `M` -/

/-- From `s` to `t`, `halted` and a latched fault stay set and `N` and `M` are the same (70_reset_and_hazards.md R181). -/
def KeepsStopsAndSizes (s t : State) : Prop :=
  (s.halted = true → t.halted = true) ∧ (s.fault ≠ .none → t.fault = s.fault) ∧ t.N = s.N ∧ t.M = s.M

variable {s t u : State}

theorem KeepsStopsAndSizes.refl (s : State) : KeepsStopsAndSizes s s := ⟨id, fun _ => rfl, rfl, rfl⟩

theorem KeepsStopsAndSizes.trans (h : KeepsStopsAndSizes s t) (h' : KeepsStopsAndSizes t u) : KeepsStopsAndSizes s u := by
  obtain ⟨hhalted, hfault, hN, hM⟩ := h
  obtain ⟨hhalted', hfault', hN', hM'⟩ := h'
  refine ⟨fun hs => hhalted' (hhalted hs), fun hs => ?_, hN'.trans hN, hM'.trans hM⟩
  have ht : t.fault = s.fault := hfault hs
  exact (hfault' (ht ▸ hs)).trans ht

theorem keepsStopsAndSizes_halt (s : State) : KeepsStopsAndSizes s s.halt := ⟨fun _ => rfl, fun _ => rfl, rfl, rfl⟩

theorem effectOf_keepsStopsAndSizes (i : Instr) (s : State) : KeepsStopsAndSizes s (effectOf i s) := by
  rcases effectOf_cases i s with ⟨d, r, -, he⟩ | ⟨r, a, -, he⟩ | ⟨h, l, -, he⟩ | ⟨h, l, -, he⟩ | ⟨j, k, -, he⟩ <;> rw [he]
  case inl => exact ⟨id, fun _ => rfl, writeResult_N d r s, rfl⟩
  case inr.inr.inr.inr => exact keepsStopsAndSizes_halt s
  all_goals exact ⟨id, fun _ => rfl, rfl, rfl⟩

/-- Raising writes an empty latch only (60_exceptions.md R153). -/
theorem exec_keepsStopsAndSizes {i : Instr} (h : exec i s = .next t) : KeepsStopsAndSizes s t := by
  cases hop : operandFault i s with
  | none =>
    rw [exec_of_passes hop] at h
    cases h
    exact effectOf_keepsStopsAndSizes i s
  | some f =>
    rw [exec_of_fails hop] at h
    cases h
    exact ⟨id, fun hlatched => if_neg hlatched, rfl, rfl⟩

theorem executeOneWith_keepsStopsAndSizes {opc : OpcodeMap} {o a b : Byte} (h : executeOneWith opc o a b s = .next t) :
    KeepsStopsAndSizes s t := by
  have hir : KeepsStopsAndSizes s (s.recordIr o a) := ⟨id, fun _ => rfl, rfl, rfl⟩
  rcases executeOneWith_cases opc o a b s with ⟨m, -, he⟩ | ⟨-, he⟩ <;> rw [he] at h
  · exact hir.trans (exec_keepsStopsAndSizes h)
  · cases h
    exact hir.trans (keepsStopsAndSizes_halt _)

theorem step_keepsStopsAndSizes (h : step s = .next t) : KeepsStopsAndSizes s t := by
  have hadvance (n : Nat) : KeepsStopsAndSizes s (s.advancePc n) := ⟨id, fun _ => rfl, rfl, rfl⟩
  rcases runLoopStep_cases h with ⟨-, rfl⟩ | ⟨-, -, rfl⟩ | ⟨-, -, -, rfl⟩ | ⟨-, -, he⟩
  · exact .refl _
  · exact keepsStopsAndSizes_halt s
  · exact (hadvance 1).trans (keepsStopsAndSizes_halt _)
  · exact (hadvance 3).trans (executeOneWith_keepsStopsAndSizes he)

theorem runEnds_keepsStopsAndSizes (h : RunEnds s t) : KeepsStopsAndSizes s t :=
  runEnds_keeps (fun _ _ hs hstep => hs.trans (step_keepsStopsAndSizes hstep)) h (.refl s)

theorem hostLoad_keepsStopsAndSizes (bytes : List Byte) (s : State) : KeepsStopsAndSizes s (hostLoad bytes s).1 := by
  unfold hostLoad
  split <;> exact ⟨id, fun _ => rfl, rfl, rfl⟩

theorem hostWriteReg_keepsStopsAndSizes (i : Nat) (v : Byte) (s : State) :
    KeepsStopsAndSizes s (hostWriteReg i v s).1 := by
  unfold hostWriteReg
  split
  · exact ⟨id, fun _ => rfl, List.length_set, rfl⟩
  · exact .refl s

theorem hostWriteMem_keepsStopsAndSizes (a : Nat) (v : Byte) (s : State) :
    KeepsStopsAndSizes s (hostWriteMem a v s).1 := by
  unfold hostWriteMem
  split <;> exact ⟨id, fun _ => rfl, rfl, rfl⟩

/-- Of the operations but reset, only `ExecuteOne` can set `halted` or the latch. -/
theorem hostDo_keepsStopsAndSizes {op : HostOp} {r : HostReply} (h : hostDo op s = .next (t, r))
    (hop : ∀ p, op ≠ .reset p) : KeepsStopsAndSizes s t := by
  cases op
  case reset p => exact absurd rfl (hop p)
  case load bytes =>
    have hl : hostLoad bytes s = (t, r) := Host.Outcome.next.inj (unlessFaulted_eq_next h).2
    simpa only [hl] using hostLoad_keepsStopsAndSizes bytes s
  case executeOne o a b => exact executeOneWith_keepsStopsAndSizes (hostExecuteOne_eq_next (unlessFaulted_eq_next h).2).1
  case writeReg i v => simpa only [Host.Outcome.next.inj h] using hostWriteReg_keepsStopsAndSizes i v s
  case writeMem a v => simpa only [Host.Outcome.next.inj h] using hostWriteMem_keepsStopsAndSizes a v s
  all_goals
    cases h
    exact ⟨id, fun _ => rfl, rfl, rfl⟩

end KeptButByReset

/-- Settles O33: every instruction, step, host operation but reset and, by induction, every run keeps the four. -/
theorem onlyResetClearsHaltedAndFault : Obligations.OnlyResetClearsHaltedAndFault := by
  refine ⟨?instruction, ?step, ?host, ?run, ?reset⟩
  case instruction =>
    intro i s
    obtain ⟨t, hexec⟩ := exec_next i s
    exact ⟨t, hexec, exec_keepsStopsAndSizes hexec⟩
  case step => exact fun s t hstep => step_keepsStopsAndSizes hstep
  case host => exact fun op s t r h hop => hostDo_keepsStopsAndSizes h hop
  case run => exact fun s t r h => runEnds_keepsStopsAndSizes (hostAnswers_run_iff.mp h).1
  case reset => exact fun p s => ⟨_, rfl, State.resetWith_running p, State.resetWith_N p, State.resetWith_M p⟩

section HostAccess

/-! ### `Load`, `ExecuteOne` and the indexed accessors, by what their tests find -/

variable {s : State}

theorem unlessFaulted_of_none (h : s.fault = .none) (act : Host.Outcome (State × HostReply) Fault Refusal) :
    unlessFaulted s act = act := by
  simp [unlessFaulted, h]

theorem unlessFaulted_of_faulted (h : s.fault ≠ .none) (act : Host.Outcome (State × HostReply) Fault Refusal) :
    unlessFaulted s act = .refused .hostCallAfterFault := by
  unfold unlessFaulted
  split
  · exact absurd ‹_› h
  · rfl

theorem hostLoad_of_fits {bytes : List Byte} (h : bytes.length ≤ s.M) :
    hostLoad bytes s = ({ s with mem := Memory.writeFrom s.mem 0 bytes }, .done) := if_pos h

theorem hostLoad_of_too_long {bytes : List Byte} (h : s.M < bytes.length) : hostLoad bytes s = (s, .capacityExceeded) :=
  if_neg h.not_ge

/-- A loaded byte is what its cell reads as. -/
theorem State.mem?_load_of_lt {bytes : List Byte} (hfit : bytes.length ≤ s.M) {a : Nat} (ha : a < bytes.length) :
    State.mem? { s with mem := Memory.writeFrom s.mem 0 bytes } a = bytes[a]? := by
  have hcell : a < s.M := ha.trans_le hfit
  have hread : Memory.read (Memory.writeFrom s.mem 0 bytes) a = bytes[a] := by simp [Memory.read_writeFrom, ha]
  rw [List.getElem?_eq_getElem ha, State.mem?_eq_some_iff]
  exact ⟨hcell, hread⟩

/-- `Load` leaves the cells above the program. -/
theorem State.mem?_load_of_ge {bytes : List Byte} {a : Nat} (ha : bytes.length ≤ a) :
    State.mem? { s with mem := Memory.writeFrom s.mem 0 bytes } a = s.mem? a := by
  have hread : Memory.read (Memory.writeFrom s.mem 0 bytes) a = Memory.read s.mem a := by
    simp [Memory.read_writeFrom, ha]
  rw [State.mem?, hread]
  rfl

theorem latchedReply_eq (s : State) : latchedReply s = if s.fault = .none then .done else .raised s.fault := by
  split
  · exact latchedReply_of_none ‹_›
  · exact latchedReply_of_faulted ‹_›

theorem hostExecuteOne_of_next {o a b : Byte} {t : State} (h : executeOne o a b s = .next t) :
    hostExecuteOne o a b s = .next (t, latchedReply t) := by
  simp [hostExecuteOne, h]

theorem hostWriteReg_of_lt {i : Nat} (h : i < s.N) (v : Byte) :
    hostWriteReg i v s = ({ s with regs := s.regs.set i v }, .done) := if_pos h

theorem hostWriteReg_of_ge {i : Nat} (h : s.N ≤ i) (v : Byte) : hostWriteReg i v s = (s, .indexOutOfBounds) :=
  if_neg h.not_gt

theorem hostWriteMem_of_lt {a : Nat} (h : a < s.M) (v : Byte) : hostWriteMem a v s = (s.writeMem a v, .done) := if_pos h

theorem hostWriteMem_of_ge {a : Nat} (h : s.M ≤ a) (v : Byte) : hostWriteMem a v s = (s, .indexOutOfBounds) :=
  if_neg h.not_gt

theorem State.reg?_of_ge {i : Nat} (h : s.N ≤ i) : s.reg? i = none := List.getElem?_eq_none h

theorem State.mem?_of_ge {a : Nat} (h : s.M ≤ a) : s.mem? a = none := if_neg h.not_gt

end HostAccess

/-- Settles O46: the copy, read back cell by cell. -/
theorem loadCopiesProgram : Obligations.LoadCopiesProgram := by
  intro bytes s hfault hfit
  refine ⟨Memory.writeFrom s.mem 0 bytes, ?copied, fun _ ha => State.mem?_load_of_lt hfit ha,
    fun _ ha => State.mem?_load_of_ge ha, ?empty⟩
  case copied => rw [hostDo, unlessFaulted_of_none hfault, hostLoad_of_fits hfit]
  case empty =>
    rintro rfl
    rfl

/-- Settles O47: the test on the program's length. -/
theorem tooLongLoadIsRefused : Obligations.TooLongLoadIsRefused := by
  intro bytes s hfault hlong
  rw [hostDo, unlessFaulted_of_none hfault, hostLoad_of_too_long hlong]

/-- Settles O48: `ExecuteOne` with the reply from the latch it leaves, or the refusal. -/
theorem hostExecuteOneReports : Obligations.HostExecuteOneReports := by
  intro o a b s
  refine ⟨?performed, ?refused⟩
  case performed =>
    intro hfault
    obtain ⟨t, hexec⟩ := executeOne_next o a b s
    refine ⟨t, hexec, ?_⟩
    rw [hostDo, unlessFaulted_of_none hfault, hostExecuteOne_of_next hexec, latchedReply_eq]
  case refused =>
    exact fun hfault => ⟨unlessFaulted_of_faulted hfault _, fun _ => unlessFaulted_of_faulted hfault _, rfl⟩

/-- Settles O49: a register and a cell, written and read back, and the two refusals of an index. -/
theorem accessorsReadBackWrites : Obligations.AccessorsReadBackWrites := by
  intro i v s
  refine ⟨?register, ?cell, ?noRegister, ?noCell⟩
  case register =>
    intro hi
    have hvalue : State.reg? { s with regs := s.regs.set i v } i = some v := List.getElem?_set_self hi
    refine ⟨_, by rw [hostDo, hostWriteReg_of_lt hi], hvalue, fun j hj => List.getElem?_set_ne hj.symm, ?_, rfl⟩
    rw [hostDo, hvalue]
    rfl
  case cell =>
    intro hi
    have hvalue : (s.writeMem i v).mem? i = some v := State.mem?_writeMem_self hi v
    refine ⟨_, by rw [hostDo, hostWriteMem_of_lt hi], hvalue, fun j hj => State.mem?_writeMem_other hj v, ?_, rfl⟩
    rw [hostDo, hvalue]
    rfl
  case noRegister =>
    intro hi
    rw [hostDo, hostDo, hostWriteReg_of_ge hi, State.reg?_of_ge hi]
    exact ⟨rfl, rfl⟩
  case noCell =>
    intro hi
    rw [hostDo, hostDo, hostWriteMem_of_ge hi, State.mem?_of_ge hi]
    exact ⟨rfl, rfl⟩

/-- Settles O50: each operation is one field read or written, whatever the state is. -/
theorem specialAccessorsHaveNoSideEffect : Obligations.SpecialAccessorsHaveNoSideEffect :=
  fun _ _ _ _ => ⟨rfl, rfl, rfl, rfl, rfl, rfl, rfl, rfl, rfl, rfl⟩

section RunReply

/-! ### The reply of a run, by the latch where it began and where it ended -/

variable {s t u : State} {r : HostReply}

theorem runReplies_of_not_faulted (h : s.fault = .none) : RunReplies s t r ↔ r = latchedReply t := by
  simp [RunReplies, State.Faulted, h]

theorem runReplies_of_faulted (h : s.Faulted) : RunReplies s t r ↔ r = latchedReply t ∨ r = .done := by
  simp [RunReplies, h]

/-- Where a run ends, the reply tells a final end from a faulted one. -/
theorem eq_latchedReply_iff_of_stopped (h : ¬ t.Running) :
    r = latchedReply t ↔ (t.Final ∧ r = .done) ∨ (t.Faulted ∧ r = .raised t.fault) := by
  rcases State.final_or_faulted_of_not_running h with hfinal | hfaulted
  · simp [latchedReply_of_none hfinal.2, hfinal, hfinal.not_faulted]
  · have hnot : ¬ t.Final := fun hfinal => hfinal.not_faulted hfaulted
    simp [latchedReply_of_faulted hfaulted, hfaulted, hnot]

theorem State.Final.not_running (h : s.Final) : ¬ s.Running := by simp [State.Running, h.1]

theorem State.Faulted.not_running (h : s.Faulted) : ¬ s.Running := fun hrun => h hrun.2

theorem hostAnswers_run_of_not_faulted (h : s.fault = .none) :
    HostAnswers .run s t r ↔ RunEnds s t ∧ r = latchedReply t := by
  rw [hostAnswers_run_iff, runReplies_of_not_faulted h]

theorem hostAnswers_run_of_final (h : s.Final) : HostAnswers .run s t r ↔ t = s ∧ r = .done := by
  rw [hostAnswers_run_of_not_faulted h.2, runEnds_of_stopped h.not_running]
  refine and_congr_right ?_
  rintro rfl
  rw [latchedReply_of_none h.2]

theorem hostAnswers_run_of_faulted (h : s.Faulted) :
    HostAnswers .run s t r ↔ t = s ∧ (r = .done ∨ r = .raised s.fault) := by
  rw [hostAnswers_run_iff, runReplies_of_faulted h, runEnds_of_stopped h.not_running]
  refine and_congr_right ?_
  rintro rfl
  rw [latchedReply_of_faulted h, or_comm]

/-- A running engine's step that faults ends the call with that fault. -/
theorem hostAnswers_run_of_faulting_step (hrun : s.Running) (hs : step s = .next t) (ht : t.Faulted) :
    HostAnswers .run s u r ↔ u = t ∧ r = .raised t.fault := by
  rw [hostAnswers_run_of_not_faulted hrun.2, runEnds_of_step hrun hs, runEnds_of_stopped ht.not_running]
  refine and_congr_right ?_
  rintro rfl
  rw [latchedReply_of_faulted ht]

/-- After any other step the call goes on as if made then. -/
theorem hostAnswers_run_of_step (hrun : s.Running) (hs : step s = .next t) (ht : t.fault = .none) :
    HostAnswers .run s u r ↔ HostAnswers .run t u r := by
  rw [hostAnswers_run_of_not_faulted hrun.2, hostAnswers_run_of_not_faulted ht, runEnds_of_step hrun hs]

end RunReply

/-- Settles O55: the end of a run and the latch there fix the reply; a stopped engine's run ends where it began, a running
engine's goes on from its step. -/
theorem runReportsWhatItLatched : Obligations.RunReportsWhatItLatched := by
  intro s
  refine ⟨?notFaulted, fun hfinal _ _ => hostAnswers_run_of_final hfinal,
    fun hfaulted _ _ => hostAnswers_run_of_faulted hfaulted, ?running⟩
  case notFaulted =>
    intro hfault t r
    rw [hostAnswers_run_of_not_faulted hfault]
    exact and_congr_right fun hends => eq_latchedReply_iff_of_stopped (runEnds_not_running hends)
  case running =>
    intro hrun
    obtain ⟨t, hs⟩ := step_next_of_running hrun
    exact ⟨t, hs, fun ht _ _ => hostAnswers_run_of_faulting_step hrun hs ht,
      fun ht _ _ => hostAnswers_run_of_step hrun hs ht⟩

end Sys2Proof.Machine
